-- ==== Sys2Proof/Word.lean ====
section
/-! DEFINITION. The widths of the block's data: operation words (R70), 16-bit registers and samples (R7, R56), 8-bit
levels and frame bytes (R7, R168). -/

namespace Sys2Proof

/-- An operation word, 32 bits (30_encoding.md R70). -/
abbrev OpWord := BitVec 32

/-- A 16-bit register, cursor, operand or sample (00_scope.md R7, 20_memory.md R56). -/
abbrev Data16 := BitVec 16

/-- An 8-bit level (00_scope.md R7) or one byte of the host's wire format (45_host_boundary.md R168). -/
abbrev Byte := BitVec 8

end Sys2Proof
end

