-- ==== Sys2Proof/Config.lean ====
section
/-! DEFINITION. The implementation parameters of 00_scope.md R6, and the one free value the spec leaves open. -/

namespace Sys2Proof

/-- `COMPARE_MODE` (R6, R9): what "reaches" means. -/
inductive CompareMode where
  | eq
  | ge
  deriving DecidableEq, Repr

/-- `CLEAR_ASSERT_PHASE` (R6): where the clear-assert test of a tick reads `ITC` (R91 or R96). -/
inductive ClearAssertPhase where
  | preIncrement
  | postRollover
  deriving DecidableEq, Repr

/-- `EVENT_ATOMICITY` (R6): a conversion is one step (R110) or two (R117). -/
inductive EventAtomicity where
  | atomic
  | interleaved
  deriving DecidableEq, Repr

/-- Electrical level of "asserted" (`CLR_POLARITY`, `SH_POLARITY` of R6; R36, R37). -/
inductive Polarity where
  | activeHigh
  | activeLow
  deriving DecidableEq, Repr

/-- The parameters of R6. A statement about every `Config` holds for every value the spec leaves OPEN (log 1).
`cap` carries R6's bound 1 <= CAP <= 65535. `tickUnitPos` is DEDUCED: R133 calls its quotient undefined for `IT = 0`
only, so `TICK_UNIT` is not 0 (log 4; unsafe only for a reader who wants `TICK_UNIT = 0`).
The last four fields are OPEN and read by no rule; `none` says that no value is given (log 19). -/
structure Config where
  /-- `CAP`, sample-buffer capacity. -/
  cap : Nat
  capPos : 1 ≤ cap
  capLe : cap ≤ 65535
  /-- `CONST_MIN_PERIOD`, numerator of the clear-period formula. -/
  constMinPeriod : Nat
  /-- `TICK_UNIT`, factor of the clear-period formula. -/
  tickUnit : Nat
  tickUnitPos : 1 ≤ tickUnit
  /-- `W_CNT`, width of `ITC` and `CPC` in bits. -/
  wCnt : Nat
  compareMode : CompareMode
  clearAssertPhase : ClearAssertPhase
  eventAtomicity : EventAtomicity
  /-- `H_RESET`. -/
  hReset : Byte
  /-- `V_RESET`. -/
  vReset : Byte
  /-- `AFE_RESET`. -/
  afeReset : Byte
  /-- `TICK_PERIOD` in microseconds; no rule of the model's steps depends on it. -/
  tickPeriodMicros : Nat
  /-- `PCLK_PERIOD`. -/
  pclkPeriod : Option Nat
  /-- `SH_WIDTH`. -/
  shWidth : Option Nat
  clrPolarity : Option Polarity
  shPolarity : Option Polarity
  deriving DecidableEq, Repr

/-- The values of R6's table: the source's and the spec's decisions, and for the OPEN ones the spec's simulator
defaults (`CAP` 3694, levels 0, `AFE_RESET` = `V_RESET`; logs 2 and 3, unsafe for a claim about these values only). -/
def Config.simulatorDefault : Config where
  cap := 3694
  capPos := by decide
  capLe := by decide
  constMinPeriod := 18470
  tickUnit := 10
  tickUnitPos := by decide
  wCnt := 16
  compareMode := .ge
  clearAssertPhase := .preIncrement
  eventAtomicity := .atomic
  hReset := 0
  vReset := 0
  afeReset := 0
  tickPeriodMicros := 10
  pclkPeriod := none
  shWidth := none
  clrPolarity := none
  shPolarity := none

/-- FREE VALUE (log 13, safe): which of the two admitted outcomes the n-th `CONV_ADVANCE` takes (R117): `true` is
outcome (b), the cursor re-read; `false` is outcome (a), the latched value. No body: nothing can prove a value of it. -/
opaque Config.advanceRereads : Nat → Bool

end Sys2Proof
end

