-- ==== Sys2Proof/Syntax.lean ====
section
/-! DEFINITION. The operations of the opcode map (30_encoding.md section 2), the agents that issue them (R12), and the
reasons a word is refused (60_exceptions.md R188). -/

namespace Sys2Proof

/-- The four agents (00_scope.md R12). -/
inductive Agent where
  | tickSource
  | converter
  | host
  | resetSource
  deriving DecidableEq, Repr

/-- One constructor per row of spec/opcode_table.json. Operands are the fields of R72 to R75, used as they stand (R76). -/
inductive Instr where
  /-- `TICK` (R90). -/
  | tick
  /-- `CONV_DONE code` (R110). -/
  | convDone (code : Data16)
  /-- `RESET` (R210). -/
  | reset
  /-- `WR_IT v` (R130). -/
  | wrIt (v : Data16)
  /-- `WR_HLEVEL v` (R131). -/
  | wrHlevel (v : Byte)
  /-- `WR_VLEVEL v` (R132). -/
  | wrVlevel (v : Byte)
  /-- `RD_IT` (R145). -/
  | rdIt
  /-- `RD_HLEVEL` (R146). -/
  | rdHlevel
  /-- `RD_VLEVEL` (R147). -/
  | rdVlevel
  /-- `RD_CP` (R148). -/
  | rdCp
  /-- `RD_ITC` (R149). -/
  | rdItc
  /-- `RD_CPC` (R150). -/
  | rdCpc
  /-- `RD_STATUS` (R151). -/
  | rdStatus
  /-- `RD_CUR` (R152). -/
  | rdCur
  /-- `RD_AFE` (R153). -/
  | rdAfe
  /-- `RD_SAMPLE i` (R154). -/
  | rdSample (i : Data16)
  deriving DecidableEq, Repr

/-- The mnemonics of the opcode map. -/
inductive Mnemonic where
  | tick | convDone | reset
  | wrIt | wrHlevel | wrVlevel
  | rdIt | rdHlevel | rdVlevel | rdCp | rdItc | rdCpc | rdStatus | rdCur | rdAfe
  | rdSample
  deriving DecidableEq, Repr

/-- Why a word, or a host-side encode, is refused (60_exceptions.md R188). -/
inductive RefuseReason where
  /-- No row of the opcode map matches (R77, R78). -/
  | reservedEncoding
  /-- WRITE to one of the read-only registers 0x003 to 0x008 (R78). -/
  | writeReadOnly
  /-- `RD_SAMPLE` with `IDX >= CAP` (R78). -/
  | indexOutOfRange
  /-- The word's class is not the issuing agent's (R81, R195). -/
  | wrongAgent
  /-- Host-side encode at a level without a meaning (R171). -/
  | levelUndefined
  deriving DecidableEq, Repr

end Sys2Proof
end

