-- ==== Sys2Proof/WellFormed.lean ====
section
/-! DEFINITION. Which operations the opcode map admits: the one operand restriction is `RD_SAMPLE`'s `IDX < CAP`
(30_encoding.md R75, R78); every other field stores every value of its width (R125). -/

namespace Sys2Proof

/-- Is the operation one a word can carry, in a block of capacity `cap`? -/
def Instr.wellFormed (cap : Nat) : Instr → Bool
  | .rdSample i => decide (i.toNat < cap)
  | .tick | .convDone _ | .reset => true
  | .wrIt _ | .wrHlevel _ | .wrVlevel _ => true
  | .rdIt | .rdHlevel | .rdVlevel | .rdCp | .rdItc | .rdCpc | .rdStatus | .rdCur | .rdAfe => true

end Sys2Proof
end

