-- ==== Sys2Proof/Decode.lean ====
section
/-! DEFINITION. Operation words: the fields of 30_encoding.md R71 to R75, the total decoder of R80 with the agent rule
R81, the opcode map as rows of match and mask, and the encoder written from the same layouts. -/

namespace Sys2Proof

/-- `CLS`, bits [31:30] (R71). -/
def classField (w : OpWord) : BitVec 2 := w.extractLsb' 30 2

/-- `EVT`, bits [29:24] of an EVENT word (R72). -/
def eventField (w : OpWord) : BitVec 6 := w.extractLsb' 24 6

/-- Bits [23:16], reserved in an EVENT word (R72). -/
def eventReserved (w : OpWord) : Byte := w.extractLsb' 16 8

/-- Bits [29:28], reserved in a WRITE or READ word (R73, R74). -/
def accessReserved (w : OpWord) : BitVec 2 := w.extractLsb' 28 2

/-- `REG`, bits [27:16] (R73, R74). -/
def regField (w : OpWord) : BitVec 12 := w.extractLsb' 16 12

/-- Bits [29:16], reserved in a SAMPLE_READ word (R75). -/
def sampleReserved (w : OpWord) : BitVec 14 := w.extractLsb' 16 14

/-- `DATA` or `IDX`, bits [15:0] (R72, R73, R75). -/
def dataField (w : OpWord) : Data16 := w.extractLsb' 0 16

/-- `DATA[15:8]`, which must be 0 in a WRITE to `HL` or `VL` (R73, R77). -/
def dataHigh (w : OpWord) : Byte := w.extractLsb' 8 8

/-- `DATA[7:0]` (R76). -/
def dataLow (w : OpWord) : Byte := w.extractLsb' 0 8

/-- The `cls == 00` branch of R80. -/
def decodeEvent (w : OpWord) : Except RefuseReason Instr :=
  if eventReserved w ≠ 0 then .error .reservedEncoding
  else if eventField w = 0x00 then (if dataField w = 0 then .ok .tick else .error .reservedEncoding)
  else if eventField w = 0x01 then .ok (.convDone (dataField w))
  else if eventField w = 0x02 then (if dataField w = 0 then .ok .reset else .error .reservedEncoding)
  else .error .reservedEncoding

/-- The `cls == 01` branch of R80. -/
def decodeWrite (w : OpWord) : Except RefuseReason Instr :=
  if accessReserved w ≠ 0 then .error .reservedEncoding
  else if regField w = 0x000 then .ok (.wrIt (dataField w))
  else if regField w = 0x001 then
    (if dataHigh w = 0 then .ok (.wrHlevel (dataLow w)) else .error .reservedEncoding)
  else if regField w = 0x002 then
    (if dataHigh w = 0 then .ok (.wrVlevel (dataLow w)) else .error .reservedEncoding)
  else if (regField w).toNat ≤ 0x008 then .error .writeReadOnly
  else .error .reservedEncoding

/-- The `cls == 10` branch of R80. -/
def decodeRead (w : OpWord) : Except RefuseReason Instr :=
  if accessReserved w ≠ 0 ∨ dataField w ≠ 0 then .error .reservedEncoding
  else if regField w = 0x000 then .ok .rdIt
  else if regField w = 0x001 then .ok .rdHlevel
  else if regField w = 0x002 then .ok .rdVlevel
  else if regField w = 0x003 then .ok .rdCp
  else if regField w = 0x004 then .ok .rdItc
  else if regField w = 0x005 then .ok .rdCpc
  else if regField w = 0x006 then .ok .rdStatus
  else if regField w = 0x007 then .ok .rdCur
  else if regField w = 0x008 then .ok .rdAfe
  else .error .reservedEncoding

/-- The `cls == 11` branch of R80. -/
def decodeSampleRead (cap : Nat) (w : OpWord) : Except RefuseReason Instr :=
  if sampleReserved w ≠ 0 then .error .reservedEncoding
  else if cap ≤ (dataField w).toNat then .error .indexOutOfRange
  else .ok (.rdSample (dataField w))

/-- R80: every word is one operation or one refusal reason; of the state only the parameter `CAP` is read. -/
def decode (cap : Nat) (w : OpWord) : Except RefuseReason Instr :=
  if classField w = 0 then decodeEvent w
  else if classField w = 1 then decodeWrite w
  else if classField w = 2 then decodeRead w
  else decodeSampleRead cap w

/-- The agent that may issue an operation (R81, R195). -/
def Instr.issuer : Instr → Agent
  | .tick => .tickSource
  | .convDone _ => .converter
  | .reset => .resetSource
  | .wrIt _ | .wrHlevel _ | .wrVlevel _ => .host
  | .rdIt | .rdHlevel | .rdVlevel | .rdCp | .rdItc | .rdCpc | .rdStatus | .rdCur | .rdAfe => .host
  | .rdSample _ => .host

/-- A word as issued by an agent: decoding comes first (60_exceptions.md R192), then the agent rule R81.
DEDUCED: a word with two grounds for refusal gets the decoder's reason (log 12, safe: both refuse). -/
def decodeFrom (cap : Nat) (a : Agent) (w : OpWord) : Except RefuseReason Instr :=
  match decode cap w with
  | .error r => .error r
  | .ok i => if i.issuer = a then .ok i else .error .wrongAgent

/-- The agent R81 allows for a word's class and event number: for an EVENT its source, for WRITE, READ and SAMPLE_READ
the host. A reserved event number has no such agent; the tick source stands in (the decoder refuses the word). -/
def classIssuer (w : OpWord) : Agent :=
  if classField w ≠ 0 then .host
  else if eventField w = 0x01 then .converter
  else if eventField w = 0x02 then .resetSource
  else .tickSource

/-- A word from its bits [31:16] and [15:0]. -/
def halves (high low : Data16) : OpWord := high ++ low

/-- `DATA` of a level write: bits [15:8] are 0 (R73, R76). -/
def levelData (v : Byte) : Data16 := 0x00#8 ++ v

/-- The word of an operation, from the layouts of R72 to R75. -/
def Instr.encode : Instr → OpWord
  | .tick => halves 0x0000 0x0000
  | .convDone code => halves 0x0100 code
  | .reset => halves 0x0200 0x0000
  | .wrIt v => halves 0x4000 v
  | .wrHlevel v => halves 0x4001 (levelData v)
  | .wrVlevel v => halves 0x4002 (levelData v)
  | .rdIt => halves 0x8000 0x0000
  | .rdHlevel => halves 0x8001 0x0000
  | .rdVlevel => halves 0x8002 0x0000
  | .rdCp => halves 0x8003 0x0000
  | .rdItc => halves 0x8004 0x0000
  | .rdCpc => halves 0x8005 0x0000
  | .rdStatus => halves 0x8006 0x0000
  | .rdCur => halves 0x8007 0x0000
  | .rdAfe => halves 0x8008 0x0000
  | .rdSample i => halves 0xC000 i

/-- The mnemonic of an operation. -/
def Instr.mnemonic : Instr → Mnemonic
  | .tick => .tick
  | .convDone _ => .convDone
  | .reset => .reset
  | .wrIt _ => .wrIt
  | .wrHlevel _ => .wrHlevel
  | .wrVlevel _ => .wrVlevel
  | .rdIt => .rdIt
  | .rdHlevel => .rdHlevel
  | .rdVlevel => .rdVlevel
  | .rdCp => .rdCp
  | .rdItc => .rdItc
  | .rdCpc => .rdCpc
  | .rdStatus => .rdStatus
  | .rdCur => .rdCur
  | .rdAfe => .rdAfe
  | .rdSample _ => .rdSample

/-- One row of the opcode map (30_encoding.md section 2). -/
structure OpcodeRow where
  mnemonic : Mnemonic
  pattern : OpWord
  mask : OpWord
  deriving DecidableEq, Repr

/-- A word selects the row when `w & mask == match`. -/
def OpcodeRow.accepts (r : OpcodeRow) (w : OpWord) : Bool := w &&& r.mask == r.pattern

/-- The opcode map (30_encoding.md section 2, spec/opcode_table.json). -/
def opcodeTable : List OpcodeRow :=
  [⟨.tick, 0x00000000#32, 0xFFFFFFFF#32⟩, ⟨.convDone, 0x01000000#32, 0xFFFF0000#32⟩, ⟨.reset, 0x02000000#32, 0xFFFFFFFF#32⟩,
   ⟨.wrIt, 0x40000000#32, 0xFFFF0000#32⟩, ⟨.wrHlevel, 0x40010000#32, 0xFFFFFF00#32⟩, ⟨.wrVlevel, 0x40020000#32, 0xFFFFFF00#32⟩,
   ⟨.rdIt, 0x80000000#32, 0xFFFFFFFF#32⟩, ⟨.rdHlevel, 0x80010000#32, 0xFFFFFFFF#32⟩, ⟨.rdVlevel, 0x80020000#32, 0xFFFFFFFF#32⟩,
   ⟨.rdCp, 0x80030000#32, 0xFFFFFFFF#32⟩, ⟨.rdItc, 0x80040000#32, 0xFFFFFFFF#32⟩, ⟨.rdCpc, 0x80050000#32, 0xFFFFFFFF#32⟩,
   ⟨.rdStatus, 0x80060000#32, 0xFFFFFFFF#32⟩, ⟨.rdCur, 0x80070000#32, 0xFFFFFFFF#32⟩, ⟨.rdAfe, 0x80080000#32, 0xFFFFFFFF#32⟩,
   ⟨.rdSample, 0xC0000000#32, 0xFFFF0000#32⟩]

/-- The host's query: the operation the decoder reads from a word of `nbits` bits whose bits above are 0. An operation
word is one 32-bit item (R70), so no byte order arises (20_memory.md R54). `CAP` is the simulator default (log 2). -/
def decodeTableWord (nbits w : Nat) : Option Instr :=
  if nbits ≤ 32 ∧ w < 2 ^ 32 then
    match decode Config.simulatorDefault.cap (BitVec.ofNat 32 w) with
    | .ok i => some i
    | .error _ => none
  else none

end Sys2Proof
end

