-- ==== Sys2Proof/Machine/ClearPeriod.lean ====
section
/-! DEFINITION. Arithmetic primitives of 00_scope.md R8 and R9, and the clear-period function of 42_configuration.md
R133. -/

namespace Sys2Proof.Machine

/-- `trunc_N(v)` = `v mod 2^N` (R8). -/
def trunc (n v : Nat) : Nat := v % 2 ^ n

/-- `f(it) = trunc_16(CONST_MIN_PERIOD div (it * TICK_UNIT) + 1)` on unbounded naturals, for `it >= 1` (R133). The
spec gives no `f(0)`; no caller applies it there (R135). -/
def clearPeriod (c : Config) (it : Nat) : Data16 :=
  BitVec.ofNat 16 (c.constMinPeriod / (it * c.tickUnit) + 1)

end Sys2Proof.Machine
end

