-- ==== Sys2Proof/Machine/State.lean ====
section
/-! DEFINITION. Everything the spec gives the block (10_state.md R20), the two records it gives the model (the output
trace, R34; the refused mark, R188), the parameters (R6), and the schedule of the agents' turns (R12, R60). -/

namespace Sys2Proof.Machine

/-- The sample buffer `BUF` (20_memory.md R51): the written cells, indices strictly rising; an index that is not listed
is an unwritten cell. A cell is 16 bits whole, never two bytes (R54; log 15, safe). -/
abbrev Memory := List (Nat × Data16)

/-- The fault codes of 60_exceptions.md R186. -/
inductive FaultCode where
  /-- 0x01, raised by `CP_COMMIT` with `IT = 0`. -/
  | divZero
  /-- 0x02, raised by `RD_SAMPLE` of an unwritten cell. -/
  | unwrittenRead
  deriving DecidableEq, Repr

/-- What a fault records (R185): its code and its info, held in 16 bits (log 18, safe: both infos of R186 fit). -/
structure FaultRecord where
  code : FaultCode
  info : Data16
  deriving DecidableEq, Repr

/-- The output events (10_state.md R34). -/
inductive Output where
  | shFire
  | clrAssert
  | clrDeassert
  | cursorReset
  | afeSet (l : Byte)
  | readData (v : Data16)
  deriving DecidableEq, Repr

/-- One turn of the free schedule (00_scope.md R12): an agent issues a word, or takes its micro-step now. DESIGN CHOICE:
the schedule is data in the state (log 5, safe: every schedule is some list). -/
inductive Turn where
  /-- The agent issues an operation word. -/
  | issue (a : Agent) (w : OpWord)
  /-- The host takes `CP_COMMIT` (42_configuration.md R134). -/
  | commit
  /-- The converter takes `CONV_ADVANCE` (41_sample_acquisition.md R117). -/
  | advance
  deriving DecidableEq, Repr

/-- The state. From `it` to `fault`: the block's (R20). `refusals`, `trace`: the model's records that the spec asks for.
`cfg`, `inputs`, `draws`: the model's own (logs 1, 5, 13). -/
structure State where
  /-- The implementation parameters (R6); nothing changes them (R21). -/
  cfg : Config
  /-- `IT` (R22). -/
  it : Data16
  /-- `HL` (R23). -/
  hl : Byte
  /-- `VL` (R24). -/
  vl : Byte
  /-- `CP` (R25). -/
  cp : Data16
  /-- `ITC` (R26), a number below `2^W_CNT` (log 14). -/
  itc : Nat
  /-- `CPC` (R27), a number below `2^W_CNT` (log 14). -/
  cpc : Nat
  /-- `CLR` (R28): true = asserted. -/
  clr : Bool
  /-- `CUR` (R29). -/
  cur : Data16
  /-- `AFE` (R30). -/
  afe : Byte
  /-- `BUF` (R51). -/
  buf : Memory
  /-- `STALE` (R31). -/
  stale : Bool
  /-- `CONV_PEND` (R32). -/
  convPend : Option Data16
  /-- `FAULT` (R33). -/
  fault : Option FaultRecord
  /-- The refused marks of the run, oldest first (60_exceptions.md R188; log 11). -/
  refusals : List RefuseReason
  /-- The output events of all steps so far, in order (R34; log 16). -/
  trace : List Output
  /-- The turns still to come (R12; log 5). -/
  inputs : List Turn
  /-- How many `CONV_ADVANCE` steps have drawn their outcome (R117; log 13). -/
  draws : Nat
  deriving DecidableEq, Repr

/-- The host's fault outcome. The block's own faults are a NEXT state with `FAULT` written, since the block goes on to
wait for `RESET` (60_exceptions.md R185, R189; log 10), so no step ends here and there is no constructor. -/
inductive Fault where
  deriving DecidableEq, Repr

/-- The host's refusal outcome. The block's own refusals are a NEXT state with a mark (60_exceptions.md R188; log 11). -/
inductive Refusal where
  /-- Raised by an arm of `exec` whose instruction has no meaning yet; safe. No arm raises it. -/
  | notModelled (mnemonic : String)
  deriving DecidableEq, Repr

/-- The state after `RESET` and at power-on (10_state.md R41, 70_reset_and_hazards.md R211) of a block with parameters
`c`. The model's records and its schedule start empty (log 21). -/
def State.resetFor (c : Config) : State where
  cfg := c
  it := 1
  hl := c.hReset
  vl := c.vReset
  cp := clearPeriod c 1
  itc := 0
  cpc := 0
  clr := false
  cur := 0
  afe := c.afeReset
  buf := []
  stale := false
  convPend := none
  fault := none
  refusals := []
  trace := []
  inputs := []
  draws := 0

/-- Power-on (R211) with R6's values and the spec's simulator defaults for the OPEN parameters (logs 2, 3). -/
def State.reset : State := State.resetFor Config.simulatorDefault

end Sys2Proof.Machine
end

