-- ==== Sys2Proof/Machine/Ops.lean ====
section
/-! DEFINITION. The shared operations: the comparison `reaches` (R9, `cmp`), the sample buffer (R52, R53), outputs (R34), raising a
fault (R185) and leaving it (R194), the refused mark (R188), and which agents have a step (R189). -/

namespace Sys2Proof.Machine

/-- What an operation answers. -/
abbrev Result := Host.Outcome State Fault Refusal

/-- `cmp(a, b)`: "a reaches b" (00_scope.md R9, `COMPARE_MODE`). -/
def reaches (c : Config) (a b : Nat) : Bool :=
  match c.compareMode with
  | .eq => decide (a = b)
  | .ge => decide (b ≤ a)

/-- The value of cell `i`, or none where it is unwritten (20_memory.md R51). -/
def Memory.read : Memory → Nat → Option Data16
  | [], _ => none
  | (j, v) :: m, i => if j = i then some v else Memory.read m i

/-- The buffer with cell `i` written (20_memory.md R53), its cells still in rising order. -/
def Memory.write : Memory → Nat → Data16 → Memory
  | [], i, v => [(i, v)]
  | (j, u) :: m, i, v =>
    if i < j then (i, v) :: (j, u) :: m
    else if i = j then (i, v) :: m
    else (j, u) :: Memory.write m i v

/-- The canonical form: indices strictly rising. An unlisted cell reads as unwritten, which no entry can say, so no
entry is superfluous. -/
def Memory.wf : Memory → Bool
  | [] => true
  | [_] => true
  | (i, _) :: (j, v) :: m => decide (i < j) && Memory.wf ((j, v) :: m)

/-- `emit` (00_scope.md R10): append an output event (10_state.md R34). -/
def State.emit (o : Output) (s : State) : State := { s with trace := s.trace ++ [o] }

/-- `MemWrite(i, 2, v)` on the state's buffer (20_memory.md R53). -/
def State.writeCell (i : Nat) (v : Data16) (s : State) : State := { s with buf := s.buf.write i v }

/-- TAKING A FAULT, `raise F(info)`: writes `FAULT` and nothing else (60_exceptions.md R185, R193). The way back is
`RESET` alone (R194), `resetBlock` below. -/
def State.raise (code : FaultCode) (info : Data16) (s : State) : State := { s with fault := some ⟨code, info⟩ }

/-- LEAVING A FAULT, and the effect of `RESET` in every state (70_reset_and_hazards.md R210): the block is in the state of
10_state.md R41, no output is emitted (R212), and the refused mark stays (R188). What is not the block's (trace, schedule,
draw counter, parameters) stays too (log 23, DEDUCED). -/
def resetBlock (s : State) : State :=
  { s with
    it := 1, hl := s.cfg.hReset, vl := s.cfg.vReset
    cp := BitVec.ofNat 16 (s.cfg.constMinPeriod / (1 * s.cfg.tickUnit) + 1)
    itc := 0, cpc := 0, clr := false, cur := 0
    afe := s.cfg.afeReset
    buf := []
    stale := false, convPend := none, fault := none }

/-- The number of a fault code (60_exceptions.md R186). -/
def FaultCode.number : FaultCode → Byte
  | .divZero => 0x01
  | .unwrittenRead => 0x02

/-- A refused word sets the mark with its reason and does nothing else (60_exceptions.md R188). -/
def State.refuse (r : RefuseReason) (s : State) : State := { s with refusals := s.refusals ++ [r] }

/-- The turn at the head of the schedule has been taken; `rest` is what is left of the schedule. -/
def State.setInputs (rest : List Turn) (s : State) : State := { s with inputs := rest }

/-- Whether an agent has a step of its own now (60_exceptions.md R189), and if not, what lifts the hold. -/
inductive Readiness where
  /-- The agent may issue an operation. -/
  | ready
  /-- `FAULT != none`: only the reset source has a step (R33). -/
  | halted
  /-- `CONV_PEND != none`: lifted by `CONV_ADVANCE`. -/
  | awaitsAdvance
  /-- `STALE = 1`: the host's only step is `CP_COMMIT` (R134). -/
  | awaitsCommit
  deriving DecidableEq, Repr

/-- The table of holds (60_exceptions.md R189, 45_host_boundary.md R165): `RESET` is never held, `TICK` only by a fault,
the converter by a fault or a conversion in flight, the host by these and by its own pending commit. -/
def readiness (a : Agent) (s : State) : Readiness :=
  match a with
  | .resetSource => .ready
  | .tickSource => if s.fault.isSome then .halted else .ready
  | .converter =>
    if s.fault.isSome then .halted else if s.convPend.isSome then .awaitsAdvance else .ready
  | .host =>
    if s.fault.isSome then .halted
    else if s.convPend.isSome then .awaitsAdvance
    else if s.stale then .awaitsCommit
    else .ready

/-- An operation of agent `a`: its effect where the agent has a step; where it is held (R189) it has no step, which the
model answers by the unchanged state: it waits with none of its effect (log 7, safe). -/
def whenReady (a : Agent) (body : State → State) (s : State) : Result :=
  match readiness a s with
  | .ready => .next (body s)
  | .halted | .awaitsAdvance | .awaitsCommit => .next s

end Sys2Proof.Machine
end

