-- ==== Sys2Proof/Machine/Configuration.lean ====
section
/-! DEFINITION. The acquisition configuration (42_configuration.md): the host's three writes and the micro-step
`CP_COMMIT`. No value is validated (R125). -/

namespace Sys2Proof.Machine

/-- `CP_COMMIT` (R134), enabled only while `STALE = 1`: with `IT = 0` it raises `DIV_ZERO` before writing anything (R135);
otherwise `CP` is derived from `IT`, the AFE is programmed from `VL`, and the commit is no longer pending. -/
def cpCommit (s : State) : State :=
  if s.it = 0 then s.raise .divZero s.it
  else { s with cp := clearPeriod s.cfg s.it.toNat, afe := s.vl, stale := false, trace := s.trace ++ [.afeSet s.vl] }

/-- `WR_IT v` (R130). -/
def execWrIt (v : Data16) (s : State) : Result :=
  whenReady .host (fun s => { s with it := v, stale := true }) s

/-- `WR_HLEVEL v` (R131). -/
def execWrHlevel (v : Byte) (s : State) : Result := whenReady .host (fun s => { s with hl := v }) s

/-- `WR_VLEVEL v` (R132); the AFE is not signalled (R137). -/
def execWrVlevel (v : Byte) (s : State) : Result := whenReady .host (fun s => { s with vl := v }) s

end Sys2Proof.Machine
end

