-- ==== Sys2Proof/Machine/Flags.lean ====
section
/-! DEFINITION. The block's only status flag, `CLR` (10_state.md R28): its two writers and the STATUS word. -/

namespace Sys2Proof.Machine

/-- The clear line is asserted, and the tick resets the write cursor (40_pulse_scheduler.md R91): `CLR <- 1`, `CUR <- 0`,
`CLR_ASSERT` then `CURSOR_RESET`. -/
def assertClear (s : State) : State :=
  { s with clr := true, cur := 0, trace := s.trace ++ [.clrAssert, .cursorReset] }

/-- The clear line is driven inactive (R95); the event is emitted even where `CLR` was already 0. -/
def deassertClear (s : State) : State :=
  { s with clr := false, trace := s.trace ++ [.clrDeassert] }

/-- STATUS (10_state.md R40, 43_register_reads.md R151): bit 0 is `CLR`, the others read 0. -/
def statusWord (s : State) : Data16 := if s.clr then 1 else 0

end Sys2Proof.Machine
end

