-- ==== Sys2Proof/Machine/PulseScheduler.lean ====
section
/-! DEFINITION. The pulse scheduler's operation `TICK` (40_pulse_scheduler.md). -/

namespace Sys2Proof.Machine

/-- The clear-assert test at one of its two places (steps 1 and 3b of R90): it acts only where `CLEAR_ASSERT_PHASE` names
that place, and then when `ITC == 0` and `CLR == 0` (R91, R96). -/
def clearAssertTest (place : ClearAssertPhase) (s : State) : State :=
  if s.cfg.clearAssertPhase = place ∧ s.itc = 0 ∧ s.clr = false then assertClear s else s

/-- Step 2 of R90 (R92): `ITC <- trunc_W_CNT(ITC + 1)`. -/
def countTick (s : State) : State := { s with itc := trunc s.cfg.wCnt (s.itc + 1) }

/-- Step 3 of R90 (R93, R94): at a rollover `ITC <- 0`, `CPC` counts, and one shift pulse is issued. -/
def shiftRollover (s : State) : State :=
  if reaches s.cfg s.itc s.it.toNat then
    { s with itc := 0, cpc := trunc s.cfg.wCnt (s.cpc + 1), trace := s.trace ++ [.shFire] }
  else s

/-- Step 4 of R90 (R95). It tests `CPC` as step 3 has left it. DESIGN CHOICE: R98 says that in `EQ` mode, with `CPC = CP` after
a commit, the next tick ends the clear cycle; where that tick is a rollover, step 3 counts `CPC` on first, and the model follows
R90's order: the cycle does not end (log 27, unsafe). -/
def clearCycleEnd (s : State) : State :=
  if reaches s.cfg s.cpc s.cp.toNat then deassertClear { s with cpc := 0 } else s

/-- The steps of one tick, in the order of R90 and R97. -/
def tick (s : State) : State :=
  clearCycleEnd (clearAssertTest .postRollover (shiftRollover (countTick (clearAssertTest .preIncrement s))))

/-- `TICK` (R90). It cannot fault or be refused; only a fault holds it (R189). -/
def execTick (s : State) : Result := whenReady .tickSource tick s

end Sys2Proof.Machine
end

