-- ==== Sys2Proof/Machine/Operands.lean ====
section
/-! DEFINITION. Operands and the register map: how 8-bit fields meet the 16-bit data path (30_encoding.md R76) and what
each register index reads as (10_state.md R40). -/

namespace Sys2Proof.Machine

/-- `zext_16` of an 8-bit value (R8): bits [15:8] read 0 (R40). -/
def zext16 (v : Byte) : Data16 := v.setWidth 16

/-- The assigned registers of the map R40. -/
inductive Reg where
  | it | hl | vl | cp | itc | cpc | status | cur | afe
  deriving DecidableEq, Repr

/-- The register index (R40). -/
def Reg.index : Reg → BitVec 12
  | .it => 0x000
  | .hl => 0x001
  | .vl => 0x002
  | .cp => 0x003
  | .itc => 0x004
  | .cpc => 0x005
  | .status => 0x006
  | .cur => 0x007
  | .afe => 0x008

/-- The access column of R40: RW or RO. -/
def Reg.writable : Reg → Bool
  | .it | .hl | .vl => true
  | .cp | .itc | .cpc | .status | .cur | .afe => false

/-- What a read of the register delivers (R145 to R153, the bits column of R40). -/
def Reg.value (r : Reg) (s : State) : Data16 :=
  match r with
  | .it => s.it
  | .hl => zext16 s.hl
  | .vl => zext16 s.vl
  | .cp => s.cp
  | .itc => BitVec.ofNat 16 s.itc
  | .cpc => BitVec.ofNat 16 s.cpc
  | .status => statusWord s
  | .cur => s.cur
  | .afe => zext16 s.afe

/-- The reset column of R40. -/
def Reg.resetValue (r : Reg) (c : Config) : Data16 :=
  match r with
  | .it => 1
  | .hl => zext16 c.hReset
  | .vl => zext16 c.vReset
  | .cp => clearPeriod c 1
  | .itc | .cpc | .status | .cur => 0
  | .afe => zext16 c.afeReset

/-- The operation that reads the register (30_encoding.md section 2). -/
def Reg.readInstr : Reg → Instr
  | .it => .rdIt
  | .hl => .rdHlevel
  | .vl => .rdVlevel
  | .cp => .rdCp
  | .itc => .rdItc
  | .cpc => .rdCpc
  | .status => .rdStatus
  | .cur => .rdCur
  | .afe => .rdAfe

/-- A register read: exactly one `READ_DATA`, and no state of the block changes (43_register_reads.md; 20_memory.md R57). -/
def readRegister (r : Reg) (s : State) : State := s.emit (.readData (r.value s))

end Sys2Proof.Machine
end

