-- ==== Sys2Proof/Machine/RegisterReads.lean ====
section
/-! DEFINITION. The host's reads (43_register_reads.md): one `READ_DATA` each, no state of the block changes. -/

namespace Sys2Proof.Machine

/-- `RD_IT` (R145). -/
def execRdIt (s : State) : Result := whenReady .host (readRegister .it) s

/-- `RD_HLEVEL` (R146). -/
def execRdHlevel (s : State) : Result := whenReady .host (readRegister .hl) s

/-- `RD_VLEVEL` (R147). -/
def execRdVlevel (s : State) : Result := whenReady .host (readRegister .vl) s

/-- `RD_CP` (R148). -/
def execRdCp (s : State) : Result := whenReady .host (readRegister .cp) s

/-- `RD_ITC` (R149). -/
def execRdItc (s : State) : Result := whenReady .host (readRegister .itc) s

/-- `RD_CPC` (R150). -/
def execRdCpc (s : State) : Result := whenReady .host (readRegister .cpc) s

/-- `RD_STATUS` (R151). -/
def execRdStatus (s : State) : Result := whenReady .host (readRegister .status) s

/-- `RD_CUR` (R152). -/
def execRdCur (s : State) : Result := whenReady .host (readRegister .cur) s

/-- `RD_AFE` (R153). -/
def execRdAfe (s : State) : Result := whenReady .host (readRegister .afe) s

/-- The effect of `RD_SAMPLE i` (R154): the cell's value, or the fault `UNWRITTEN_READ(i)` (20_memory.md R52). An index
outside the buffer never comes from a word (R78); on such a term the effect is the refusal R78 gives the word (log 17). -/
def readSample (i : Data16) (s : State) : State :=
  if i.toNat < s.cfg.cap then
    match s.buf.read i.toNat with
    | some v => s.emit (.readData v)
    | none => s.raise .unwrittenRead i
  else s.refuse .indexOutOfRange

/-- `RD_SAMPLE i` (R154). -/
def execRdSample (i : Data16) (s : State) : Result := whenReady .host (readSample i) s

end Sys2Proof.Machine
end

