-- ==== Sys2Proof/Machine/Reset.lean ====
section
/-! DEFINITION. `RESET` (70_reset_and_hazards.md R210). -/

namespace Sys2Proof.Machine

/-- `RESET` (R210): it has a step in every state, a faulted one included. -/
def execReset (s : State) : Result := whenReady .resetSource resetBlock s

end Sys2Proof.Machine
end

