-- ==== Sys2Proof/Machine/SampleAcquisition.lean ====
section
/-! DEFINITION. The sample acquisition unit (41_sample_acquisition.md): `CONV_DONE` and the micro-step `CONV_ADVANCE`. -/

namespace Sys2Proof.Machine

/-- The effect of a completed conversion. Below capacity the code goes to `BUF[CUR]` as it is (R114); then the cursor
advances (`ATOMIC`, R110) or its value is latched for the second half (`INTERLEAVED`, R117). At capacity the conversion
is discarded without a trace (R111, R112). -/
def convDone (code : Data16) (s : State) : State :=
  if s.cur.toNat < s.cfg.cap then
    match s.cfg.eventAtomicity with
    | .atomic => { s.writeCell s.cur.toNat code with cur := s.cur + 1 }
    | .interleaved => { s.writeCell s.cur.toNat code with convPend := some s.cur }
  else s

/-- The cursor after `CONV_ADVANCE`: outcome (a) of R117 from the latched value `c`, or outcome (b), the re-read. -/
def advancedCursor (reread : Bool) (c : Data16) (s : State) : Data16 :=
  if reread then (if s.cur.toNat < s.cfg.cap then s.cur + 1 else s.cur) else c + 1

/-- `CONV_ADVANCE` (R117), enabled only with a conversion in flight. Both outcomes are admitted: which one is taken is the
free value `Config.advanceRereads` (log 13). -/
def convAdvance (s : State) : State :=
  match s.convPend with
  | none => s
  | some c =>
    { s with cur := advancedCursor (Config.advanceRereads s.draws) c s, convPend := none, draws := s.draws + 1 }

/-- `CONV_DONE code` (R110, R117), held by a fault or a conversion in flight (R189). -/
def execConvDone (code : Data16) (s : State) : Result := whenReady .converter (convDone code) s

end Sys2Proof.Machine
end

