-- ==== Sys2Proof/Machine/Dispatch.lean ====
section
/-! DEFINITION. One arm per operation: each is one direct call of its meaning. -/

namespace Sys2Proof.Machine

def exec (i : Instr) (s : State) : Host.Outcome State Fault Refusal :=
  match i with
  | .tick => Sys2Proof.Machine.execTick s
  | .convDone code => Sys2Proof.Machine.execConvDone code s
  | .reset => Sys2Proof.Machine.execReset s
  | .wrIt v => Sys2Proof.Machine.execWrIt v s
  | .wrHlevel v => Sys2Proof.Machine.execWrHlevel v s
  | .wrVlevel v => Sys2Proof.Machine.execWrVlevel v s
  | .rdIt => Sys2Proof.Machine.execRdIt s
  | .rdHlevel => Sys2Proof.Machine.execRdHlevel s
  | .rdVlevel => Sys2Proof.Machine.execRdVlevel s
  | .rdCp => Sys2Proof.Machine.execRdCp s
  | .rdItc => Sys2Proof.Machine.execRdItc s
  | .rdCpc => Sys2Proof.Machine.execRdCpc s
  | .rdStatus => Sys2Proof.Machine.execRdStatus s
  | .rdCur => Sys2Proof.Machine.execRdCur s
  | .rdAfe => Sys2Proof.Machine.execRdAfe s
  | .rdSample idx => Sys2Proof.Machine.execRdSample idx s

end Sys2Proof.Machine
end

