-- ==== Sys2Proof/Machine/Fetch.lean ====
section
/-! DEFINITION. Who takes the next step, and with what: the head of the schedule, the holds of 60_exceptions.md R189, the
micro-steps, and decoding a word that an agent issues. The block has no program counter and fetches nothing (10_state.md
R39); this is where the model gets its next operation. -/

namespace Sys2Proof.Machine

/-- What the head of the schedule comes to. -/
inductive Plan where
  /-- The step is complete with this state: a micro-step, a refused word, a turn with no step, or waiting. -/
  | settled (t : State)
  /-- An agent has issued this operation; it executes in this state, its turn taken off the schedule. -/
  | run (i : Instr) (t : State)
  deriving DecidableEq, Repr

/-- The turn of agent `a` with word `w`. Where a micro-step lifts the agent's hold, that micro-step is this step and the
word stays for the next one (the host's only step while `STALE = 1` is `CP_COMMIT`, R134; log 8). In a faulted block the
agent has no step (R33) and the turn passes (log 9). Otherwise the word is decoded (R80, R81, R192): refused (R188), or run. -/
def issueTurn (a : Agent) (w : OpWord) (rest : List Turn) (s : State) : Plan :=
  match readiness a s with
  | .awaitsAdvance => .settled (convAdvance s)
  | .awaitsCommit => .settled (cpCommit s)
  | .halted => .settled (s.setInputs rest)
  | .ready =>
    match decodeFrom s.cfg.cap a w with
    | .error r => .settled ((s.setInputs rest).refuse r)
    | .ok i => .run i (s.setInputs rest)

/-- A turn at which the host takes `CP_COMMIT`: enabled only when `STALE = 1`, `CONV_PEND = none`, `FAULT = none` (R134).
A conversion in flight is completed first (R189); where no commit is pending the turn passes. -/
def commitTurn (rest : List Turn) (s : State) : State :=
  match readiness .host s with
  | .awaitsAdvance => convAdvance s
  | .awaitsCommit => cpCommit (s.setInputs rest)
  | .halted | .ready => s.setInputs rest

/-- A turn at which the converter takes `CONV_ADVANCE`: enabled only with a conversion in flight and no fault (R117, R189). -/
def advanceTurn (rest : List Turn) (s : State) : State :=
  if s.fault.isSome then s.setInputs rest else convAdvance (s.setInputs rest)

/-- Nothing is scheduled: the block waits for its next operation (70_reset_and_hazards.md R211), but an enabled micro-step
is taken, as R233's weak fairness says it eventually is (log 8). -/
def idle (s : State) : State :=
  match readiness .host s with
  | .awaitsAdvance => convAdvance s
  | .awaitsCommit => cpCommit s
  | .halted | .ready => s

/-- The next step's plan. -/
def fetch (s : State) : Plan :=
  match s.inputs with
  | [] => .settled (idle s)
  | .issue a w :: rest => issueTurn a w rest s
  | .commit :: rest => .settled (commitTurn rest s)
  | .advance :: rest => .settled (advanceTurn rest s)

/-- The turn that issues the word `w` of a block of 32-bit words, by the agent R81 allows for its class, ahead of all other
turns (log 20). -/
def scheduleFirst (w : Nat) (s : State) : State :=
  s.setInputs (.issue (classIssuer (BitVec.ofNat 32 w)) (BitVec.ofNat 32 w) :: s.inputs)

end Sys2Proof.Machine
end

