-- ==== Sys2Proof/Machine/Step.lean ====
section
/-! DEFINITION. One step of the block (00_scope.md R11). -/

namespace Sys2Proof.Machine

/-- One step: what the schedule's next turn comes to. -/
def step (s : State) : Host.Outcome State Fault Refusal :=
  match fetch s with
  | .settled t => .next t
  | .run i t => exec i t

/-- The host's placing of a word: the next turn issues it (log 20). Every operation word has 32 bits (R70), so `nbits` adds
nothing: the bits above it are 0 in `w`. -/
def State.withFetchWord (s : State) (_nbits w : Nat) : State := scheduleFirst w s

end Sys2Proof.Machine
end

