-- ==== Sys2Proof/Machine/HostBoundary.lean ====
section
/-! DEFINITION. The host-side functions at the block's boundary (45_host_boundary.md): the frame encode, the SET decode,
and the operations by which the host carries them out. They are pure functions of values the host has read (R4) and add no
operation to the opcode map. -/

namespace Sys2Proof.Machine

/-- `bps(vl)` (R166); no byte count is defined for `vl >= 4` (R171). -/
def bytesPerSample (vl : Byte) : Option Nat :=
  if vl.toNat ≤ 1 then some 1 else if vl.toNat ≤ 3 then some 2 else none

/-- `n = CAP >> hl`, the number of samples of a frame (R166). -/
def frameSamples (cap hl : Nat) : Nat := cap >>> hl

/-- The indices consumed, `i << hl` for `i = 0 .. n-1`, in increasing order (R167). -/
def consumedIndices (cap hl : Nat) : List Nat := (List.range (frameSamples cap hl)).map (· <<< hl)

/-- `trunc_8(s >> k)` (R168, D27). -/
def packByte (s : Data16) (k : Nat) : Byte := (s >>> k).setWidth 8

/-- The bytes of one consumed sample, first transmitted first (the table of R168); none for a level without a packing
(R171). -/
def packSample (vl : Byte) (s : Data16) : Option (List Byte) :=
  match vl.toNat with
  | 0 => some [packByte s 6]
  | 1 => some [packByte s 4]
  | 2 => some [packByte s 10, packByte s 2]
  | 3 => some [packByte s 8, packByte s 0]
  | _ => none

/-- The packing of the consumed samples, in their order (R168). An encode at a level without a packing is refused before it
comes to this (R171). -/
def packSamples (vl : Byte) (samples : List Data16) : List Byte := samples.flatMap fun v => (packSample vl v).getD []

/-- How a host-side encode ends. -/
inductive EncodeResult where
  /-- The frame's bytes in transmission order. -/
  | frame (bytes : List Byte)
  /-- A read, or the commit that it waited for, raised this fault (R170, R154). -/
  | faulted (f : FaultRecord)
  /-- Refused for its levels (R171). -/
  | refused (r : RefuseReason)
  /-- The block stood in a fault when a read was due: the host has no step (60_exceptions.md R189), and there is no frame
(DEDUCED, log 22). -/
  | halted
  deriving DecidableEq, Repr

/-- The levels an encode is refused at: `vl >= 4` and `hl >= 32` (R171, D27). -/
def levelsUndefined (hl vl : Byte) : Bool := decide (4 ≤ vl.toNat) || decide (32 ≤ hl.toNat)

/-- The samples at `indices` of a buffer that stands still, or the fault of the first unwritten one (R170, R154). -/
def readCells (m : Memory) : List Nat → Except FaultRecord (List Data16)
  | [] => .ok []
  | i :: rest =>
    match m.read i with
    | none => .error ⟨.unwrittenRead, BitVec.ofNat 16 i⟩
    | some v =>
      match readCells m rest with
      | .ok vs => .ok (v :: vs)
      | .error f => .error f

/-- `encode(buffer_snapshot, horizontal_level, vertical_level)` (R166 to R171) on a buffer that stands still; the encode of
the live buffer is `liveEncode` in LiveEncode.lean. -/
def encodeFrame (cap : Nat) (m : Memory) (hl vl : Byte) : EncodeResult :=
  if levelsUndefined hl vl then .refused .levelUndefined
  else
    match readCells m (consumedIndices cap hl.toNat) with
    | .ok vs => .frame (packSamples vl vs)
    | .error f => .faulted f

/-- The level snapshot's two reads (R169), in either order (R170). -/
def levelOps (vlFirst : Bool) : List Instr := if vlFirst then [.rdVlevel, .rdHlevel] else [.rdHlevel, .rdVlevel]

/-- One sample read per consumed index, in increasing order (R167, R170). -/
def sampleOps (cap : Nat) (hl : Byte) : List Instr :=
  (consumedIndices cap hl.toNat).map fun i => .rdSample (BitVec.ofNat 16 i)

/-- An encode as the host's operations (R170): the level snapshot, then the sample reads; none at levels at which the encode
is refused (R171). -/
def encodeOps (vlFirst : Bool) (cap : Nat) (hl vl : Byte) : List Instr :=
  levelOps vlFirst ++ if levelsUndefined hl vl then [] else sampleOps cap hl

/-- A refused host-side encode sets the model's mark (60_exceptions.md R188, `LEVEL_UNDEFINED`; log 24). -/
def noteEncode (r : EncodeResult) (s : State) : State :=
  match r with
  | .refused reason => s.refuse reason
  | .frame _ | .faulted _ | .halted => s

/-- A decoded SET payload (R172). -/
structure SetRequest where
  it : Data16
  hl : Byte
  vl : Byte
  deriving DecidableEq, Repr

/-- `decode(payload: 4 bytes)` (R172): the integration time travels high byte first; no bounds checking. -/
def decodeSet (p0 p1 p2 p3 : Byte) : SetRequest := ⟨p0 ++ p1, p2, p3⟩

/-- The three writes of a SET, in the order the source lists the fields (R173). -/
def setWrites (r : SetRequest) : List Instr := [.wrIt r.it, .wrHlevel r.hl, .wrVlevel r.vl]

/-- Every order of the three writes, each of which the host may use (R173). -/
def setWriteOrders (r : SetRequest) : List (List Instr) :=
  [[.wrIt r.it, .wrHlevel r.hl, .wrVlevel r.vl], [.wrIt r.it, .wrVlevel r.vl, .wrHlevel r.hl],
   [.wrHlevel r.hl, .wrIt r.it, .wrVlevel r.vl], [.wrHlevel r.hl, .wrVlevel r.vl, .wrIt r.it],
   [.wrVlevel r.vl, .wrIt r.it, .wrHlevel r.hl], [.wrVlevel r.vl, .wrHlevel r.hl, .wrIt r.it]]

end Sys2Proof.Machine
end

