-- ==== Sys2Proof/Machine/Runs.lean ====
section
/-! DEFINITION. Sequences, for claims about more than one step: operations executed one after another with no other step
between them, and the observable outputs of a step. -/

namespace Sys2Proof.Machine

/-- The operations of `ops` executed in order, no other agent's step between them. -/
def runOps : List Instr → State → Result
  | [], s => .next s
  | i :: rest, s =>
    match exec i s with
    | .next t => runOps rest t
    | .fault f => .fault f
    | .refused r => .refused r

/-- `n` consecutive ticks (R83, `TICKS #n`). -/
def runTicks (n : Nat) (s : State) : Result := runOps (List.replicate n .tick) s

/-- Consecutive conversions (R83, `CONVS`). -/
def runConversions (codes : List Data16) (s : State) : Result := runOps (codes.map .convDone) s

/-- The state after one step; every step answers a next state (60_exceptions.md R185, R188, R189). -/
def stepState (s : State) : State :=
  match step s with
  | .next t => t
  | .fault _ | .refused _ => s

/-- Steps until the schedule is empty, at most `fuel` of them. -/
def drain : Nat → State → State
  | 0, s => s
  | fuel + 1, s => if s.inputs = [] then s else drain fuel (stepState s)

/-- The turns `ts` taken one after another, each after the micro-steps that lift its hold, with the rest of the schedule put
aside. A turn waits for `CONV_ADVANCE` and `CP_COMMIT` at most, so three steps a turn are enough. -/
def takeTurns (ts : List Turn) (s : State) : State :=
  (drain (3 * ts.length) (s.setInputs ts)).setInputs s.inputs

/-- How many shift pulses a list of outputs holds (R94). -/
def shiftPulses (outs : List Output) : Nat := outs.count .shFire

/-- The outputs of the j-th tick (from 0) of a steady clear cycle of `m` shift periods of `n` ticks under `PRE_INCREMENT`
(R99). -/
def preCycleOutputs (n m j : Nat) : List Output :=
  (if j = 0 then [.clrAssert, .cursorReset] else []) ++ (if (j + 1) % n = 0 then [.shFire] else []) ++
    (if j + 1 = m * n then [.clrDeassert] else [])

/-- The outputs of the j-th tick (from 0) of a steady clear cycle under `POST_ROLLOVER`, tick 0 being the asserting one
(R99). -/
def postCycleOutputs (n m j : Nat) : List Output :=
  (if j % n = 0 then [.shFire] else []) ++ (if j = 0 then [.clrAssert, .cursorReset] else []) ++
    (if j = (m - 1) * n then [.clrDeassert] else [])

end Sys2Proof.Machine
end

