-- ==== Sys2Proof/Machine/LiveEncode.lean ====
section
/-! DEFINITION. The host's encode of the live sample buffer (45_host_boundary.md R170): its reads one at a time, with steps of
the other agents before each of them (20_memory.md R61, R67). Between the reads there is no host turn but the encode's own
(R165, R169; log 22). -/

namespace Sys2Proof.Machine

/-- The agent whose turn it is (00_scope.md R12, 60_exceptions.md R195). -/
def turnAgent : Turn → Agent
  | .issue a _ => a
  | .commit => .host
  | .advance => .converter

/-- The turns of the agents other than the host. -/
def othersTurns (ts : List Turn) : List Turn := ts.filter fun t => decide (turnAgent t ≠ .host)

/-- What the host's read `i` comes to in the block `u`: the value it delivers, or the fault it ends in; a block that already
stands in a fault gives it no step (60_exceptions.md R189; log 22). -/
def readNow (i : Instr) (u : State) : State × Except EncodeResult Data16 :=
  if u.fault.isSome then (u, .error .halted)
  else
    let t := takeTurns [.issue .host i.encode] u
    match t.fault, (t.trace.drop u.trace.length).getLast? with
    | some f, _ => (t, .error (.faulted f))
    | none, some (.readData v) => (t, .ok v)
    | none, _ => (t, .error .halted)

/-- The host's next read, after the turns `others` of the other agents. -/
def hostRead (others : List Turn) (i : Instr) (s : State) : State × Except EncodeResult Data16 :=
  readNow i (takeTurns (othersTurns others) s)

/-- Reads in order, `between` listing the turns before each (none where it ends early), up to the first that gives no value. -/
def liveReads : List Instr → List (List Turn) → State → State × Except EncodeResult (List Data16)
  | [], _, s => (s, .ok [])
  | i :: rest, between, s =>
    match hostRead (between.headD []) i s with
    | (t, .error e) => (t, .error e)
    | (t, .ok v) =>
      match liveReads rest between.tail t with
      | (u, .ok vs) => (u, .ok (v :: vs))
      | (u, .error e) => (u, .error e)

/-- The end of an encode whose level snapshot read `hl` and `vl`: refused at undefined levels before any sample is read
(R171, R188), else the sample reads and the packing (R167, R168). -/
def liveSamples (hl vl : Byte) (between : List (List Turn)) (s : State) : State × EncodeResult :=
  if levelsUndefined hl vl then (noteEncode (.refused .levelUndefined) s, .refused .levelUndefined)
  else
    match liveReads (sampleOps s.cfg.cap hl) between s with
    | (t, .ok vs) => (t, .frame (packSamples vl vs))
    | (t, .error e) => (t, e)

/-- An encode of the live buffer (R170): the two level reads in either order, then the sample reads, then the packing, with
the turns of `between` before each read. -/
def liveEncode (vlFirst : Bool) (between : List (List Turn)) (s : State) : State × EncodeResult :=
  match hostRead (between.headD []) (if vlFirst then .rdVlevel else .rdHlevel) s with
  | (t, .error e) => (t, e)
  | (t, .ok a) =>
    match hostRead (between.tail.headD []) (if vlFirst then .rdHlevel else .rdVlevel) t with
    | (u, .error e) => (u, e)
    | (u, .ok b) =>
      let hl := if vlFirst then b else a
      let vl := if vlFirst then a else b
      liveSamples (hl.setWidth 8) (vl.setWidth 8) (between.drop 2) u

end Sys2Proof.Machine
end

