-- ==== Sys2Proof/Safety.lean ====
section
/-! DEFINITION. What claims call a good state: the block runs, the spec's invariants hold (10_state.md R42), and a run is
safe. -/

namespace Sys2Proof.Machine

/-- No fault has halted the block and no word has been refused: the run so far is safe. -/
abbrev State.running (s : State) : Prop := s.fault = none ∧ s.refusals = []

/-- The invariants of 10_state.md R42 (a), (b), (c), (d), (f), with what their proof needs: the canonical buffer, counters
within `W_CNT` bits (R26, R27), a latched cursor below capacity (R32, R117), no conversion in flight in a faulted block
(R189), the two ways to fault (R186), and D14's `CP = f(IT)` when no commit is pending.
`periodFits` is R42 (c)'s own condition on the parameters. -/
structure Inv (s : State) : Prop where
  periodFits : s.cfg.constMinPeriod / s.cfg.tickUnit + 1 < 65536
  curLeCap : s.cur.toNat ≤ s.cfg.cap
  bufWf : s.buf.wf = true
  bufBelowCap : ∀ e ∈ s.buf, e.1 < s.cfg.cap
  cpPos : 1 ≤ s.cp.toNat
  itPos : s.stale = false → 1 ≤ s.it.toNat
  cpDerived : s.stale = false → s.cp = clearPeriod s.cfg s.it.toNat
  itcFits : s.itc < 2 ^ s.cfg.wCnt
  cpcFits : s.cpc < 2 ^ s.cfg.wCnt
  atomicNoPend : s.cfg.eventAtomicity = .atomic → s.convPend = none
  pendBelowCap : ∀ c, s.convPend = some c → c.toNat < s.cfg.cap
  faultNoPend : s.fault.isSome = true → s.convPend = none
  divZeroFault : ∀ x, s.fault = some ⟨.divZero, x⟩ → x = 0 ∧ s.it = 0 ∧ s.stale = true
  unwrittenFault : ∀ x, s.fault = some ⟨.unwrittenRead, x⟩ → x.toNat < s.cfg.cap ∧ s.buf.read x.toNat = none

end Sys2Proof.Machine
end

