-- ==== Sys2Proof/Certificates/Slice0/Obligations.lean ====
section
/-! DEFINITION. The statements for the provers, each a `def Obligations.<Name> : Prop` listed in OBLIGATIONS.json. "R<n>" are
the spec's numbered rules; "log <n>" is notes/assumptions/<n>.md. -/

open Sys2Proof Sys2Proof.Machine

/-! ### Encoding -/

/-- Every operation a word can carry decodes from its word to itself (R72 to R76, R80). -/
def Obligations.DecodeOfEncode : Prop :=
  ∀ (cap : Nat) (i : Instr), i.wellFormed cap = true → decode cap i.encode = .ok i

/-- Every word that decodes is the word of the operation it decodes to, so no bit of it is ignored (R77, R80). -/
def Obligations.EncodeOfDecode : Prop :=
  ∀ (cap : Nat) (w : OpWord) (i : Instr), decode cap w = .ok i → i.encode = w ∧ i.wellFormed cap = true

/-- At most one row of the opcode map matches a word (30_encoding.md section 2). -/
def Obligations.OpcodeRowsDisjoint : Prop :=
  opcodeTable.Pairwise fun a b => ∀ w : OpWord, ¬(a.accepts w = true ∧ b.accepts w = true)

/-- The decoder of R80 and the opcode map's match and mask agree: an operation's row matches its word; a word that a row
matches decodes to an operation of that row, but for `RD_SAMPLE` with `IDX >= CAP`. -/
def Obligations.DecoderAgreesWithOpcodeMap : Prop :=
  ∀ (cap : Nat) (w : OpWord),
    (∀ i, decode cap w = .ok i → ∃ row ∈ opcodeTable, row.mnemonic = i.mnemonic ∧ row.accepts w = true) ∧
    (∀ row ∈ opcodeTable, row.accepts w = true →
      if row.mnemonic = .rdSample ∧ cap ≤ w.toNat % 65536 then decode cap w = .error .indexOutOfRange
      else ∃ i, decode cap w = .ok i ∧ i.mnemonic = row.mnemonic)

/-- R77: each must-be-0 bit it lists, set to 1, makes the word match no row, and the word is refused. -/
def Obligations.ReservedBitsRefuse : Prop :=
  ∀ (cap : Nat) (w : OpWord),
    ((w.toNat / 2 ^ 16 = 0x0000 ∨ w.toNat / 2 ^ 16 = 0x0200) ∧ w.toNat % 2 ^ 16 ≠ 0 ∨
     w.toNat / 2 ^ 30 = 0 ∧ w.toNat / 2 ^ 16 % 2 ^ 8 ≠ 0 ∨
     (w.toNat / 2 ^ 30 = 1 ∨ w.toNat / 2 ^ 30 = 2) ∧ w.toNat / 2 ^ 28 % 2 ^ 2 ≠ 0 ∨
     w.toNat / 2 ^ 30 = 2 ∧ w.toNat % 2 ^ 16 ≠ 0 ∨
     (w.toNat / 2 ^ 16 = 0x4001 ∨ w.toNat / 2 ^ 16 = 0x4002) ∧ w.toNat / 2 ^ 8 % 2 ^ 8 ≠ 0 ∨
     w.toNat / 2 ^ 30 = 3 ∧ w.toNat / 2 ^ 16 % 2 ^ 14 ≠ 0) →
    (∀ row ∈ opcodeTable, row.accepts w = false) ∧ decode cap w = .error .reservedEncoding

/-- R78: a word that matches no row is refused, a WRITE to 0x003..0x008 as `WRITE_READ_ONLY` and every other as
`RESERVED_ENCODING`; `RD_SAMPLE` with `IDX >= CAP` is refused as `INDEX_OUT_OF_RANGE`; a refused word, issued by an agent
that has a step, changes nothing but the refused mark and its own turn. -/
def Obligations.UnmatchedWordsRefused : Prop :=
  (∀ (cap : Nat) (w : OpWord), (∀ row ∈ opcodeTable, row.accepts w = false) →
    decode cap w =
      .error (if 0x4003 ≤ w.toNat / 2 ^ 16 ∧ w.toNat / 2 ^ 16 ≤ 0x4008 then .writeReadOnly else .reservedEncoding)) ∧
  (∀ (cap : Nat) (w : OpWord), w.toNat / 2 ^ 16 = 0xC000 → cap ≤ w.toNat % 2 ^ 16 →
    decode cap w = .error .indexOutOfRange) ∧
  (∀ (s : State) (a : Agent) (w : OpWord) (rest : List Turn) (r : RefuseReason),
    s.inputs = .issue a w :: rest → readiness a s = .ready → decode s.cfg.cap w = .error r →
    step s = .next { s with inputs := rest, refusals := s.refusals ++ [r] })

/-- R81, R195: which words each agent may issue; every other pairing of an agent with an operation's word is refused as
`WRONG_AGENT`. -/
def Obligations.AgentsIssueOnlyTheirClass : Prop :=
  ∀ (cap : Nat) (a : Agent) (w : OpWord) (i : Instr), decode cap w = .ok i →
    decodeFrom cap a w =
      if (a = .tickSource ∧ w.toNat / 2 ^ 24 = 0x00) ∨ (a = .converter ∧ w.toNat / 2 ^ 24 = 0x01) ∨
         (a = .resetSource ∧ w.toNat / 2 ^ 24 = 0x02) ∨ (a = .host ∧ w.toNat / 2 ^ 30 ≠ 0)
      then .ok i else .error .wrongAgent

/-- Words spelled from the layouts of R72 to R75 decode to the operations they stand for, in a block of any capacity above
3: one word of each class and each operand width. -/
def Obligations.SpelledWordsDecode : Prop :=
  ∀ cap : Nat, 3 < cap →
    decode cap 0x00000000 = .ok .tick ∧ decode cap 0x0100FFFF = .ok (.convDone 0xFFFF) ∧
    decode cap 0x02000000 = .ok .reset ∧ decode cap 0x40001234 = .ok (.wrIt 0x1234) ∧
    decode cap 0x400100FF = .ok (.wrHlevel 0xFF) ∧ decode cap 0x40020003 = .ok (.wrVlevel 3) ∧
    decode cap 0x80060000 = .ok .rdStatus ∧ decode cap 0xC0000003 = .ok (.rdSample 3)

/-- The register map R40: a READ of each assigned index is that register's read, which delivers the register with the map's
reserved bits 0; a WRITE of a writable index stores every value of the field's width, and is refused where it sets a reserved
bit; a WRITE of a read-only index is refused; an index above 0x008 is refused for both; and each register reads after reset as
the map's reset column says. -/
def Obligations.RegisterMapReads : Prop :=
  (∀ (cap : Nat) (r : Reg), decode cap (0x8#4 ++ r.index ++ 0x0000#16) = .ok r.readInstr) ∧
  (∀ (s : State) (r : Reg), s.fault = none → s.convPend = none → s.stale = false →
    ∃ v : Data16, exec r.readInstr s = .next { s with trace := s.trace ++ [.readData v] } ∧
      v.toNat = match r with
        | .it => s.it.toNat
        | .hl => s.hl.toNat
        | .vl => s.vl.toNat
        | .cp => s.cp.toNat
        | .itc => s.itc % 2 ^ 16
        | .cpc => s.cpc % 2 ^ 16
        | .status => if s.clr = true then 1 else 0
        | .cur => s.cur.toNat
        | .afe => s.afe.toNat) ∧
  (∀ (cap : Nat) (d : Data16), decode cap (0x4#4 ++ 0x000#12 ++ d) = .ok (.wrIt d)) ∧
  (∀ (cap : Nat) (v : Byte), decode cap (0x4#4 ++ 0x001#12 ++ (0x00#8 ++ v)) = .ok (.wrHlevel v) ∧
    decode cap (0x4#4 ++ 0x002#12 ++ (0x00#8 ++ v)) = .ok (.wrVlevel v)) ∧
  (∀ s : State, s.fault = none → s.convPend = none → s.stale = false →
    (∀ d, exec (.wrIt d) s = .next { s with it := d, stale := true }) ∧
    (∀ v, exec (.wrHlevel v) s = .next { s with hl := v }) ∧ ∀ v, exec (.wrVlevel v) s = .next { s with vl := v }) ∧
  (∀ (cap : Nat) (d : Data16), 256 ≤ d.toNat →
    decode cap (0x4#4 ++ 0x001#12 ++ d) = .error .reservedEncoding ∧
    decode cap (0x4#4 ++ 0x002#12 ++ d) = .error .reservedEncoding) ∧
  (∀ (cap : Nat) (r : Reg) (d : Data16), r.writable = false →
    decode cap (0x4#4 ++ r.index ++ d) = .error .writeReadOnly) ∧
  (∀ (cap : Nat) (x : BitVec 12) (d : Data16), 8 < x.toNat →
    decode cap (0x8#4 ++ x ++ 0x0000#16) = .error .reservedEncoding ∧
    decode cap (0x4#4 ++ x ++ d) = .error .reservedEncoding) ∧
  (∀ (c : Config) (r : Reg), r.value (State.resetFor c) = r.resetValue c) ∧
  ∀ c : Config, c.constMinPeriod = 18470 → c.tickUnit = 10 → Reg.resetValue .cp c = 1848

/-! ### One step -/

/-- A STEP RUNS THE DECODED INSTRUCTION: where the turn at the head of the schedule is an agent's that has a step, and its
word decodes to an operation that agent may issue, the step is that operation's execution, with the turn taken off. -/
def Obligations.StepRunsDecodedInstruction : Prop :=
  ∀ (s : State) (a : Agent) (w : OpWord) (rest : List Turn) (i : Instr),
    s.inputs = .issue a w :: rest → readiness a s = .ready → decode s.cfg.cap w = .ok i → i.issuer = a →
    step s = exec i { s with inputs := rest }

/-- A word placed by `withFetchWord` is the very next operation of a block that does not hold its agent. -/
def Obligations.PlacedWordRunsNext : Prop :=
  ∀ (s : State) (i : Instr), i.wellFormed s.cfg.cap = true → readiness i.issuer s = .ready →
    step (s.withFetchWord 32 i.encode.toNat) = exec i s

/-- R188: a refused word (by the decoder or the agent rule), issued by an agent that has a step, changes no state of the
block and emits nothing, and sets the mark with its reason, one of four; and no step takes a mark
away, so that it is kept for the rest of the run. That the marks are a growing list is log 11. That a refused encode sets the
mark with the fifth reason is said of `noteEncode`, a function beside the encode that no step calls (log 24). -/
def Obligations.RefusedWordOnlySetsMark : Prop :=
  (∀ (s : State) (a : Agent) (w : OpWord) (rest : List Turn) (r : RefuseReason),
    s.inputs = .issue a w :: rest → readiness a s = .ready → decodeFrom s.cfg.cap a w = .error r →
    step s = .next { s with inputs := rest, refusals := s.refusals ++ [r] } ∧
      r ∈ [.reservedEncoding, .writeReadOnly, .indexOutOfRange, .wrongAgent]) ∧
  (∀ (s : State) (cap : Nat) (m : Memory) (hl vl : Byte) (r : RefuseReason), encodeFrame cap m hl vl = .refused r →
    r = .levelUndefined ∧ noteEncode (.refused r) s = { s with refusals := s.refusals ++ [.levelUndefined] }) ∧
  ∀ s t : State, step s = .next t → ∃ marks, t.refusals = s.refusals ++ marks

/-- R189, the operations: where its agent is held, an operation has no step; the model answers the unchanged state (log 7).
`RESET` is never held, `TICK` only by a fault. -/
def Obligations.HeldOperationsHaveNoStep : Prop :=
  ∀ (s : State) (i : Instr),
    (s.fault ≠ none → i ≠ .reset → exec i s = .next s) ∧
    (s.convPend ≠ none → i.issuer = .host ∨ i.issuer = .converter → exec i s = .next s) ∧
    (s.stale = true → i.issuer = .host → exec i s = .next s)

/-- R189, R134 and R117 at the schedule. A held turn stays while the micro-step that lifts it is taken, and in a faulted block
the turn of any agent but the reset source passes: the MODEL's choice of how a hold is lifted (logs 8 and 9). A turn for
`CP_COMMIT` or `CONV_ADVANCE` where that micro-step is not enabled has none of its effect: it passes, or, for a commit during a
conversion in flight, waits for `CONV_ADVANCE`. -/
def Obligations.HeldTurnTakesLiftingStep : Prop :=
  (∀ (s : State) (a : Agent) (w : OpWord) (rest : List Turn), s.inputs = .issue a w :: rest → a ≠ .resetSource →
    (s.fault ≠ none → step s = .next { s with inputs := rest }) ∧
    (s.fault = none → s.convPend ≠ none → a ≠ .tickSource → step s = .next (convAdvance s)) ∧
    (s.fault = none → s.convPend = none → s.stale = true → a = .host → step s = .next (cpCommit s))) ∧
  (∀ (s : State) (rest : List Turn), s.inputs = .commit :: rest →
    (s.fault ≠ none → step s = .next { s with inputs := rest }) ∧
    (s.fault = none → s.convPend ≠ none → step s = .next (convAdvance s)) ∧
    (s.fault = none → s.convPend = none → s.stale = false → step s = .next { s with inputs := rest })) ∧
  ∀ (s : State) (rest : List Turn), s.inputs = .advance :: rest →
    (s.fault ≠ none ∨ s.convPend = none) → step s = .next { s with inputs := rest }

/-- With nothing scheduled the block waits (R211), but an enabled micro-step is taken (R233's fairness; log 8). -/
def Obligations.IdleBlockWaits : Prop :=
  ∀ s : State, s.inputs = [] →
    step s = .next
      (if s.fault ≠ none then s
       else if s.convPend ≠ none then convAdvance s
       else if s.stale = true then cpCommit s
       else s)

/-- R33, R194: only `RESET`, issued by the reset source, leaves a fault; any other step of a faulted block changes at most
the schedule and the refused marks. -/
def Obligations.OnlyResetLeavesFault : Prop :=
  ∀ s t : State, s.fault ≠ none → step s = .next t →
    (∃ rest, s.inputs = .issue .resetSource 0x02000000 :: rest ∧ t = resetBlock { s with inputs := rest }) ∨
    t = { s with inputs := t.inputs, refusals := t.refusals }

/-- Every step of every state, reachable or not, answers a next state: nothing ends a run (R185, R188, R189). -/
def Obligations.EveryStepAnswersNext : Prop :=
  ∀ s : State, ∃ t : State, step s = .next t

/-- R34, R188, R21: outputs and refused marks are only ever added, and the parameters never change. -/
def Obligations.RecordsOnlyGrow : Prop :=
  ∀ s t : State, step s = .next t →
    t.cfg = s.cfg ∧ (∃ outs, t.trace = s.trace ++ outs) ∧ (∃ marks, t.refusals = s.refusals ++ marks)

/-! ### Pulse scheduler -/

/-- R90 (with R91, R92, R93, R95, R96, R97): the tick source's word, and one tick, its whole next state: the clear-assert test at its place, the count,
the rollover, the clear-cycle end, the outputs in that order, and nothing else changed. Where R98 words the tick after a commit
otherwise than R90's pseudocode and R95, this is R90's (log 27). -/
def Obligations.TickEffect : Prop :=
  ∀ s : State, s.fault = none → decodeFrom s.cfg.cap .tickSource 0x00000000 = .ok .tick ∧
    let meets : Nat → Nat → Bool := fun a b => if s.cfg.compareMode = .eq then decide (a = b) else decide (b ≤ a)
    let pre : Bool := decide (s.cfg.clearAssertPhase = .preIncrement ∧ s.itc = 0 ∧ s.clr = false)
    let count := (s.itc + 1) % 2 ^ s.cfg.wCnt
    let roll := meets count s.it.toNat
    let itc := if roll then 0 else count
    let cpc := if roll then (s.cpc + 1) % 2 ^ s.cfg.wCnt else s.cpc
    let post : Bool := decide (s.cfg.clearAssertPhase = .postRollover ∧ itc = 0 ∧ s.clr = false)
    let ends := meets cpc s.cp.toNat
    exec .tick s = .next
      { s with
        itc := itc
        cpc := if ends then 0 else cpc
        clr := if ends then false else (pre || post || s.clr)
        cur := if pre || post then 0 else s.cur
        trace := s.trace ++ ((if pre then [.clrAssert, .cursorReset] else []) ++ (if roll then [.shFire] else []) ++
          (if post then [.clrAssert, .cursorReset] else []) ++ (if ends then [.clrDeassert] else [])) }

/-- R42 (e) and R92: in `GE` mode a tick taken with `IT >= 1` leaves `ITC` below `IT`, and with `CP >= 1` it leaves `CPC`
below `CP`. -/
def Obligations.GeTickLeavesCountersBelow : Prop :=
  ∀ s t : State, s.cfg.compareMode = .ge → s.fault = none → exec .tick s = .next t →
    (1 ≤ s.it.toNat → t.itc < t.it.toNat) ∧ (1 ≤ s.cp.toNat → t.cpc < t.cp.toNat)

/-- R94: a step that is a rollover (a tick of a block without a fault, whose count reaches `IT`) emits exactly one shift
pulse, and no other step emits one. -/
def Obligations.ShiftPulseOnlyFromTick : Prop :=
  ∀ s t : State, step s = .next t →
    let count := (s.itc + 1) % 2 ^ s.cfg.wCnt
    let rollover := (∃ rest, s.inputs = .issue .tickSource 0x00000000 :: rest) ∧ s.fault = none ∧
      (if s.cfg.compareMode = .eq then count = s.it.toNat else s.it.toNat ≤ count)
    ∃ outs, t.trace = s.trace ++ outs ∧ (rollover → shiftPulses outs = 1) ∧ (¬rollover → shiftPulses outs = 0)

/-- R28, R97, R103: `CLR`, `ITC` and `CPC` change only in a step that runs `TICK` from the tick source or `RESET` from the
reset source. -/
def Obligations.OnlyTickAndResetDriveClearLine : Prop :=
  ∀ s t : State, step s = .next t →
    (t.clr = s.clr ∧ t.itc = s.itc ∧ t.cpc = s.cpc) ∨
    ∃ rest, s.inputs = .issue .tickSource 0x00000000 :: rest ∨ s.inputs = .issue .resetSource 0x02000000 :: rest

/-- R90 "It does not read STALE, HL, VL, AFE or BUF": a tick of two states that differ in these gives states that differ in
these. -/
def Obligations.TickReadsOnlyTiming : Prop :=
  ∀ (s t : State) (stale : Bool) (hl vl afe : Byte) (buf : Memory), exec .tick s = .next t →
    exec .tick { s with stale := stale, hl := hl, vl := vl, afe := afe, buf := buf } =
      .next { t with stale := stale, hl := hl, vl := vl, afe := afe, buf := buf }

/-- R99 under `PRE_INCREMENT`, in either compare mode: from the start of a clear cycle with `IT = n` and `CP = m` held, after
`k <= m*n` ticks the counters stand at `k mod n` and `k div n`, the line is asserted until the cycle's last tick ends it, and
the outputs are exactly the cycle's; after `m*n` ticks the block stands at the start of the next cycle. The start has
`CPC = 0`, which R99 leaves unsaid (log 26). -/
def Obligations.SteadyCyclePreIncrement : Prop :=
  ∀ (s : State) (n m k : Nat), s.cfg.clearAssertPhase = .preIncrement → s.fault = none →
    s.it.toNat = n → s.cp.toNat = m → 1 ≤ n → 1 ≤ m → n < 2 ^ s.cfg.wCnt → m < 2 ^ s.cfg.wCnt →
    s.itc = 0 → s.cpc = 0 → s.clr = false → 1 ≤ k → k ≤ m * n →
    runTicks k s = .next
      { s with
        itc := k % n
        cpc := if k = m * n then 0 else k / n
        clr := decide (k < m * n)
        cur := 0
        trace := s.trace ++ (List.range k).flatMap (preCycleOutputs n m) }

/-- R99 under `POST_ROLLOVER`: from just before an asserting tick `r`, the cycle ends at `r + (m-1)*n` and the block stands
just before the next asserting tick after `m*n` ticks; with `m = 1` the line is never asserted between steps. The start has
`CPC = 0`, which R99 leaves unsaid (log 26). -/
def Obligations.SteadyCyclePostRollover : Prop :=
  ∀ (s : State) (n m k : Nat), s.cfg.clearAssertPhase = .postRollover → s.fault = none →
    s.it.toNat = n → s.cp.toNat = m → 1 ≤ n → 1 ≤ m → n < 2 ^ s.cfg.wCnt → m < 2 ^ s.cfg.wCnt →
    s.itc = n - 1 → s.cpc = 0 → s.clr = false → 1 ≤ k → k ≤ m * n →
    runTicks k s = .next
      { s with
        itc := (k - 1) % n
        cpc := ((k - 1) / n + 1) % m
        clr := decide (k ≤ (m - 1) * n)
        cur := 0
        trace := s.trace ++ (List.range k).flatMap (postCycleOutputs n m) }

/-- R98 in `EQ` mode: with `IT = n >= 1` at or below `ITC`, the counter runs up, wraps and reaches `n` only after
`2^W_CNT - ITC + n` ticks; the last of these emits the first shift pulse. -/
def Obligations.EqLoweredItWaitsForWrap : Prop :=
  ∀ (s : State) (n : Nat), s.cfg.compareMode = .eq → s.fault = none → s.it.toNat = n → 1 ≤ n → n ≤ s.itc →
    s.itc < 2 ^ s.cfg.wCnt →
    (∀ k, k < 2 ^ s.cfg.wCnt - s.itc + n →
      ∃ t outs, runTicks k s = .next t ∧ t.itc = (s.itc + k) % 2 ^ s.cfg.wCnt ∧ t.trace = s.trace ++ outs ∧
        shiftPulses outs = 0) ∧
    ∃ t outs, runTicks (2 ^ s.cfg.wCnt - s.itc + n) s = .next t ∧ t.itc = 0 ∧ t.trace = s.trace ++ outs ∧
      shiftPulses outs = 1

/-! ### Sample acquisition -/

/-- R110, R111, R112, R114 under `ATOMIC`, with the converter's word: below capacity the code is stored at the cursor as it is and the cursor advances
by one, every other cell and register as before; at capacity nothing changes. Only the cell at `CUR` is stored to. -/
def Obligations.ConversionStoresAtCursor : Prop :=
  ∀ (s : State) (code : Data16), s.cfg.eventAtomicity = .atomic → s.fault = none → s.convPend = none →
    decodeFrom s.cfg.cap .converter (0x0100#16 ++ code) = .ok (.convDone code) ∧
    if s.cur.toNat < s.cfg.cap then
      ∃ t, exec (.convDone code) s = .next t ∧ t = { s with buf := t.buf, cur := t.cur } ∧
        t.cur.toNat = s.cur.toNat + 1 ∧
        ∀ j, t.buf.read j = if j = s.cur.toNat then some code else s.buf.read j
    else exec (.convDone code) s = .next s

/-- R117, first half, under `INTERLEAVED`: the cell is written, the cursor value is latched and not yet advanced. -/
def Obligations.SplitConversionLatches : Prop :=
  ∀ (s : State) (code : Data16), s.cfg.eventAtomicity = .interleaved → s.fault = none → s.convPend = none →
    if s.cur.toNat < s.cfg.cap then
      ∃ t, exec (.convDone code) s = .next t ∧ t = { s with buf := t.buf, convPend := some s.cur } ∧
        ∀ j, t.buf.read j = if j = s.cur.toNat then some code else s.buf.read j
    else exec (.convDone code) s = .next s

/-- R117, second half: `CONV_ADVANCE` takes one of its two outcomes, whichever value is free (log 13), and completes the
conversion; with the cursor as the first half left it, both are the advance by one. -/
def Obligations.AdvanceTakesOneOfTwoOutcomes : Prop :=
  ∀ (s : State) (c : Data16) (rest : List Turn), s.inputs = .advance :: rest → s.fault = none → s.convPend = some c →
    ∃ cur, step s = .next { s with inputs := rest, cur := cur, convPend := none, draws := s.draws + 1 } ∧
      (cur = c + 1 ∨ cur = if s.cur.toNat < s.cfg.cap then s.cur + 1 else s.cur) ∧
      (s.cur = c → c.toNat < s.cfg.cap → cur = c + 1)

/-- R118, R226: under `INTERLEAVED` a tick that emits `CURSOR_RESET`, under either reading of the clear-assert test, between
the halves of a conversion at index `c` leaves the cursor at `c + 1` or at 1, never at 0 (which of the two is the free value
of log 13). -/
def Obligations.LostCursorReset : Prop :=
  ∀ (s t u : State) (code : Data16), s.cfg.eventAtomicity = .interleaved →
    s.fault = none → s.convPend = none → s.cur.toNat < s.cfg.cap →
    exec (.convDone code) s = .next t → exec .tick t = .next u → .cursorReset ∈ u.trace.drop t.trace.length →
    u.cur = 0 ∧ u.convPend = some s.cur ∧
      ((convAdvance u).cur.toNat = s.cur.toNat + 1 ∨ (convAdvance u).cur.toNat = 1)

/-- R116 under `ATOMIC`: after the cursor is at 0, consecutive conversions fill the buffer from index 0 in order, stop at
`CAP`, leave the other cells as they were, and change nothing else. -/
def Obligations.ConversionsFillInOrder : Prop :=
  ∀ (s : State) (codes : List Data16), s.cfg.eventAtomicity = .atomic → s.fault = none → s.convPend = none →
    s.cur = 0 →
    ∃ t, runConversions codes s = .next t ∧ t = { s with buf := t.buf, cur := t.cur } ∧
      t.cur.toNat = min codes.length s.cfg.cap ∧
      ∀ j, t.buf.read j = if j < min codes.length s.cfg.cap then codes[j]? else s.buf.read j

/-! ### Configuration -/

/-- R130, R131, R132, R125: each host write, by its word, stores every value of its field; `WR_IT` also makes a commit
pending; nothing else changes, and the AFE is not signalled. -/
def Obligations.HostWritesStore : Prop :=
  ∀ s : State, s.fault = none → s.convPend = none → s.stale = false →
    (∀ v, decodeFrom s.cfg.cap .host (0x4000#16 ++ v) = .ok (.wrIt v) ∧
      exec (.wrIt v) s = .next { s with it := v, stale := true }) ∧
    (∀ v, decodeFrom s.cfg.cap .host (0x4001#16 ++ (0x00#8 ++ v)) = .ok (.wrHlevel v) ∧
      exec (.wrHlevel v) s = .next { s with hl := v }) ∧
    (∀ v, decodeFrom s.cfg.cap .host (0x4002#16 ++ (0x00#8 ++ v)) = .ok (.wrVlevel v) ∧
      exec (.wrVlevel v) s = .next { s with vl := v })

/-- R134 with R133: a commit of `IT >= 1` derives `CP` exactly, copies `VL` to the AFE, emits `AFE_SET(VL)`, clears `STALE`,
and changes nothing else; in particular no counter. -/
def Obligations.CommitDerivesClearPeriod : Prop :=
  ∀ (s : State) (rest : List Turn), s.inputs = .commit :: rest → s.fault = none → s.convPend = none →
    s.stale = true → s.it ≠ 0 →
    ∃ cp : Data16, cp.toNat = (s.cfg.constMinPeriod / (s.it.toNat * s.cfg.tickUnit) + 1) % 2 ^ 16 ∧
      step s = .next { s with
        inputs := rest, cp := cp, afe := s.vl, stale := false, trace := s.trace ++ [.afeSet s.vl] }

/-- R135, R185: a commit with `IT = 0` raises `DIV_ZERO` with info 0 before writing anything: `FAULT` is all that changes,
and the block halts: no operation but `RESET` then does anything. That the fault is a next state is log 10, that an operation
with no step answers the unchanged state is log 7. -/
def Obligations.CommitOfZeroFaults : Prop :=
  ∀ (s : State) (rest : List Turn), s.inputs = .commit :: rest → s.fault = none → s.convPend = none →
    s.stale = true → s.it = 0 →
    ∃ t, step s = .next t ∧ t = { s with inputs := rest, fault := some ⟨.divZero, 0⟩ } ∧
      ∀ i, i ≠ .reset → exec i t = .next t

/-- R139: while `f(1)` fits 16 bits, for every `it >= 1`: `1 <= f(it) <= f(1)`; `f(it) = 1` exactly when
`it * TICK_UNIT > CONST_MIN_PERIOD`; and a clear cycle of `f(it) * it` ticks outlasts `CONST_MIN_PERIOD`. With the source's
literals `f(1) = 1848`. -/
def Obligations.ClearPeriodRange : Prop :=
  (∀ (c : Config) (it : Nat), c.constMinPeriod / c.tickUnit + 1 < 2 ^ 16 → 1 ≤ it →
    1 ≤ (clearPeriod c it).toNat ∧ (clearPeriod c it).toNat ≤ (clearPeriod c 1).toNat ∧
    ((clearPeriod c it).toNat = 1 ↔ c.constMinPeriod < it * c.tickUnit) ∧
    c.constMinPeriod < (clearPeriod c it).toNat * it * c.tickUnit) ∧
  ∀ c : Config, c.constMinPeriod = 18470 → c.tickUnit = 10 →
    (clearPeriod c 1).toNat = 1848 ∧ (clearPeriod c 10).toNat = 185

/-- R173, R136: the three writes of a SET, issued in any of their orders with nothing else scheduled, leave the block with
the decoded configuration after four steps: three writes and the commit. The order in which the AFE saw the bit-depth level
is the order of the writes, so `AFE` is not named. That four steps are enough rests on log 8: the commit is taken where it
lifts the hold of the next write, or when nothing is scheduled. -/
def Obligations.SetAppliesInEveryOrder : Prop :=
  ∀ (s : State) (r : SetRequest) (order : List Instr), order.Perm (setWrites r) → r.it ≠ 0 →
    s.fault = none → s.convPend = none → s.stale = false →
    s.inputs = order.map (fun i => .issue .host i.encode) →
    ∃ t, Host.Core.run core 4 s = .next t ∧ t.it = r.it ∧ t.hl = r.hl ∧ t.vl = r.vl ∧
      t.cp = clearPeriod s.cfg r.it.toNat ∧ t.stale = false ∧ t.fault = none ∧ t.inputs = [] ∧
      t.itc = s.itc ∧ t.cpc = s.cpc ∧ t.clr = s.clr ∧ t.cur = s.cur ∧ t.buf = s.buf

/-! ### Reads -/

/-- R145 to R153, R57: each register read, by its word, delivers its register as one `READ_DATA` and changes no state of the
block. -/
def Obligations.RegisterReadsDeliver : Prop :=
  ∀ s : State, s.fault = none → s.convPend = none → s.stale = false →
    let delivers : OpWord → Instr → Data16 → Prop := fun w i v =>
      decodeFrom s.cfg.cap .host w = .ok i ∧ exec i s = .next { s with trace := s.trace ++ [.readData v] }
    delivers 0x80000000 .rdIt s.it ∧
    delivers 0x80010000 .rdHlevel (0x00#8 ++ s.hl) ∧
    delivers 0x80020000 .rdVlevel (0x00#8 ++ s.vl) ∧
    delivers 0x80030000 .rdCp s.cp ∧
    delivers 0x80040000 .rdItc (BitVec.ofNat 16 (s.itc % 2 ^ 16)) ∧
    delivers 0x80050000 .rdCpc (BitVec.ofNat 16 (s.cpc % 2 ^ 16)) ∧
    delivers 0x80060000 .rdStatus (BitVec.ofNat 16 s.clr.toNat) ∧
    delivers 0x80070000 .rdCur s.cur ∧
    delivers 0x80080000 .rdAfe (0x00#8 ++ s.afe)

/-- R154, R52, R185: a sample read, by its word, of a written cell delivers its value and changes no state of the block; of an unwritten
one it raises `UNWRITTEN_READ` with the index and does nothing else. -/
def Obligations.SampleReadDeliversOrFaults : Prop :=
  ∀ (s : State) (i : Data16), s.fault = none → s.convPend = none → s.stale = false → i.toNat < s.cfg.cap →
    decodeFrom s.cfg.cap .host (0xC000#16 ++ i) = .ok (.rdSample i) ∧
    (∀ v, s.buf.read i.toNat = some v →
      exec (.rdSample i) s = .next { s with trace := s.trace ++ [.readData v] }) ∧
    (s.buf.read i.toNat = none →
      exec (.rdSample i) s = .next { s with fault := some ⟨.unwrittenRead, i⟩ })

/-- R155: two register reads in a row deliver the same value twice. -/
def Obligations.RepeatedReadsAgree : Prop :=
  ∀ (s : State) (r : Reg), s.fault = none → s.convPend = none → s.stale = false →
    ∃ v t, runOps [r.readInstr, r.readInstr] s = .next t ∧
      t = { s with trace := s.trace ++ [.readData v, .readData v] }

/-- R23: the block's own operations never read `HL`: for every operation but `RD_HLEVEL`, `WR_HLEVEL` and `RESET`, two states
that differ in `HL` give states that differ in `HL` alone; `WR_HLEVEL` and `RESET`, where they run, forget the difference. -/
def Obligations.HorizontalLevelIsNeverRead : Prop :=
  ∀ (s t : State) (i : Instr) (h : Byte), exec i s = .next t →
    (i ≠ .rdHlevel → (∀ v, i ≠ .wrHlevel v) → i ≠ .reset → exec i { s with hl := h } = .next { t with hl := h }) ∧
    (i = .reset ∨ ((∃ v, i = .wrHlevel v) ∧ readiness .host s = .ready) → exec i { s with hl := h } = .next t)

/-! ### Reset and the whole machine -/

/-- R210, R211, R212: in every state, a faulted one included, `RESET` leaves the block as at power-on with its parameters,
emits nothing, and keeps the refused marks; it is the only step of a faulted state; and after it the block waits for its first
operation. That trace, schedule and draw counter stay is log 23, that an operation with no step answers the unchanged state is
log 7. -/
def Obligations.ResetRestoresPowerOn : Prop :=
  ∀ s : State, decodeFrom s.cfg.cap .resetSource 0x02000000 = .ok .reset ∧
    (s.fault ≠ none → ∀ i, i ≠ .reset → exec i s = .next s) ∧ ∃ t, exec .reset s = .next t ∧
    t = { State.resetFor s.cfg with refusals := s.refusals, trace := s.trace, inputs := s.inputs, draws := s.draws } ∧
    t.it = 1 ∧ t.hl = s.cfg.hReset ∧ t.vl = s.cfg.vReset ∧
    t.cp.toNat = (s.cfg.constMinPeriod / s.cfg.tickUnit + 1) % 2 ^ 16 ∧ t.itc = 0 ∧ t.cpc = 0 ∧ t.clr = false ∧
    t.cur = 0 ∧ t.afe = s.cfg.afeReset ∧ (∀ j, t.buf.read j = none) ∧ t.stale = false ∧ t.convPend = none ∧
    t.fault = none ∧ (s.cfg.constMinPeriod = 18470 → s.cfg.tickUnit = 10 → t.cp = 1848) ∧
    (s.inputs = [] → step t = .next t)

/-- R66 with R22 to R33: which operations write each piece of state; every other operation leaves it. `CP` and `AFE` are
written by no operation but `RESET` (the commit is a micro-step), the schedule and the draw counter by none. -/
def Obligations.OperationsWriteOnlyTheirState : Prop :=
  ∀ (s t : State) (i : Instr), exec i s = .next t →
    (i ≠ .reset → (∀ v, i ≠ .wrIt v) → t.it = s.it ∧ t.stale = s.stale) ∧
    (i ≠ .reset → (∀ v, i ≠ .wrHlevel v) → t.hl = s.hl) ∧
    (i ≠ .reset → (∀ v, i ≠ .wrVlevel v) → t.vl = s.vl) ∧
    (i ≠ .reset → t.cp = s.cp ∧ t.afe = s.afe) ∧
    (i ≠ .reset → i ≠ .tick → t.itc = s.itc ∧ t.cpc = s.cpc ∧ t.clr = s.clr) ∧
    (i ≠ .reset → i ≠ .tick → (∀ c, i ≠ .convDone c) → t.cur = s.cur) ∧
    (i ≠ .reset → (∀ c, i ≠ .convDone c) → (∀ j, t.buf.read j = s.buf.read j) ∧ t.convPend = s.convPend) ∧
    (i ≠ .reset → (∀ j, i ≠ .rdSample j) → t.fault = s.fault) ∧
    (i.wellFormed s.cfg.cap = true → t.refusals = s.refusals) ∧
    t.cfg = s.cfg ∧ t.inputs = s.inputs ∧ t.draws = s.draws

/-- The invariants of R42 hold at power-on, whatever the parameters of R6, under R42 (c)'s own condition on them; in particular
at `State.reset`. -/
def Obligations.InvariantHoldsAtReset : Prop :=
  (∀ c : Config, c.constMinPeriod / c.tickUnit + 1 < 65536 → Inv (State.resetFor c)) ∧ Inv State.reset

/-- R42 (a), (b), (c), (d), (f), with D14's `CP = f(IT)`: every step from every state that meets the invariants, reachable
or not, keeps them. -/
def Obligations.StepKeepsInvariant : Prop :=
  ∀ s t : State, Inv s → step s = .next t → Inv t

/-- The sample buffer keeps its canonical form and its bound `i < CAP` (R42 (b)) at every step, from every state in which it
has them, whatever the other registers hold. -/
def Obligations.StepKeepsBufferCanonical : Prop :=
  ∀ s t : State, s.buf.wf = true → (∀ e ∈ s.buf, e.1 < s.cfg.cap) → step s = .next t →
    t.buf.wf = true ∧ ∀ e ∈ t.buf, e.1 < t.cfg.cap

/-! ### Host boundary -/

/-- R166, R167, R168: at every defined pair of levels, with every consumed cell written, the frame has
`(CAP >> hl) * bps(vl)` bytes, every consumed index is below `CAP`, and the frame is the concatenation of the bytes of the
consumed samples in order, each packed as R168's table says. -/
def Obligations.FrameLengthAndPacking : Prop :=
  ∀ (cap : Nat) (m : Memory) (hl vl : Byte) (cells : Nat → Data16), hl.toNat < 32 → vl.toNat < 4 →
    (∀ i, i < cap >>> hl.toNat → m.read (i <<< hl.toNat) = some (cells i)) →
    (∀ i, i < cap >>> hl.toNat → i <<< hl.toNat < cap) ∧
    ∃ bytes, encodeFrame cap m hl vl = .frame bytes ∧
      bytes.length = (cap >>> hl.toNat) * (if vl.toNat ≤ 1 then 1 else 2) ∧
      bytes = (List.range (cap >>> hl.toNat)).flatMap fun i =>
        let b := fun k => BitVec.ofNat 8 ((cells i).toNat / 2 ^ k)
        if vl = 0 then [b 6] else if vl = 1 then [b 4] else if vl = 2 then [b 10, b 2] else [b 8, b 0]

/-- R171: an encode is refused for `vl >= 4` and for `hl >= 32`, whatever the buffer holds; below that it is never refused,
and at `hl >= 16` its frame is empty, since `CAP <= 65535`. -/
def Obligations.UndefinedLevelsRefused : Prop :=
  ∀ (cap : Nat) (m : Memory) (hl vl : Byte),
    if 4 ≤ vl.toNat ∨ 32 ≤ hl.toNat then encodeFrame cap m hl vl = .refused .levelUndefined
    else (∀ r, encodeFrame cap m hl vl ≠ .refused r) ∧
      (16 ≤ hl.toNat → cap ≤ 65535 → encodeFrame cap m hl vl = .frame [])

/-- R170, R169, R171: the host's operations for an encode, the two level reads in either order, run with no other step between
them on a block that does not hold the host. Where the frame of the still buffer exists, they deliver the two levels and then
the samples whose packing is the frame, and change nothing but the trace; where an unwritten cell is met, they end in its
fault; where the levels are undefined, no sample is read. -/
def Obligations.EncodeByReads : Prop :=
  ∀ (s : State) (vlFirst : Bool), s.fault = none → s.convPend = none → s.stale = false →
    let levels : List Data16 := if vlFirst then [0x00#8 ++ s.vl, 0x00#8 ++ s.hl] else [0x00#8 ++ s.hl, 0x00#8 ++ s.vl]
    (∀ bytes, encodeFrame s.cfg.cap s.buf s.hl s.vl = .frame bytes → ∃ samples : List Data16,
      runOps (encodeOps vlFirst s.cfg.cap s.hl s.vl) s =
        .next { s with trace := s.trace ++ (levels ++ samples).map .readData } ∧
      samples.length = s.cfg.cap >>> s.hl.toNat ∧
      bytes = samples.flatMap fun v => (packSample s.vl v).getD []) ∧
    (∀ f, encodeFrame s.cfg.cap s.buf s.hl s.vl = .faulted f →
      ∃ t, runOps (encodeOps vlFirst s.cfg.cap s.hl s.vl) s = .next t ∧ t.fault = some f) ∧
    ((∃ r, encodeFrame s.cfg.cap s.buf s.hl s.vl = .refused r) →
      runOps (encodeOps vlFirst s.cfg.cap s.hl s.vl) s = .next { s with trace := s.trace ++ levels.map .readData })

/-- R172: the integration time travels high byte first; the levels are the last two bytes; every payload decodes. -/
def Obligations.SetPayloadHighByteFirst : Prop :=
  ∀ p0 p1 p2 p3 : Byte,
    (decodeSet p0 p1 p2 p3).it.toNat = p0.toNat * 256 + p1.toNat ∧
    (decodeSet p0 p1 p2 p3).hl = p2 ∧ (decodeSet p0 p1 p2 p3).vl = p3

/-- R173: the orders the host may write in are exactly the permutations of the three writes. -/
def Obligations.SetOrdersAreAllOrders : Prop :=
  ∀ (r : SetRequest) (order : List Instr), order ∈ setWriteOrders r ↔ order.Perm (setWrites r)

/-! ### Widened after review -/

/-- R170, R154: a sample read of an encode delivers what its cell holds at the moment of the read, after the turns of the other
agents before it, a conversion in flight or a pending commit included; an unwritten cell ends it in `UNWRITTEN_READ`, and a
pending commit of `IT = 0` in `DIV_ZERO` (R135); a block in a fault, whichever raised it, gives it no value (log 22).
That the read waits for the micro-steps is log 8. -/
def Obligations.LiveReadDeliversCellAtItsTime : Prop :=
  ∀ (s : State) (others : List Turn) (i : Data16),
    let u := takeTurns (othersTurns others) s
    i.toNat < u.cfg.cap →
    (hostRead others (.rdSample i) s).2 =
      if u.fault ≠ none then .error .halted
      else if u.stale = true ∧ u.it = 0 then .error (.faulted ⟨.divZero, 0⟩)
      else match u.buf.read i.toNat with
        | some v => .ok v
        | none => .error (.faulted ⟨.unwrittenRead, i⟩)

/-- R170 against R166 to R171: with any number of ticks before each of its reads, an encode of the live buffer ends as the
encode of the still buffer at the levels does, whichever level is read first: a frame, the fault of the first unwritten cell,
or a refusal with its mark; and it leaves levels and buffer as they were. -/
def Obligations.LiveEncodeUnderTicks : Prop :=
  ∀ (s : State) (vlFirst : Bool) (between : List (List Turn)), s.fault = none → s.convPend = none → s.stale = false →
    (∀ ts ∈ between, ∀ t ∈ ts, t = .issue .tickSource 0x00000000) →
    let live := liveEncode vlFirst between s
    live.2 = encodeFrame s.cfg.cap s.buf s.hl s.vl ∧ live.1.hl = s.hl ∧ live.1.vl = s.vl ∧ live.1.buf = s.buf ∧
      (∀ f, live.2 = .faulted f → live.1.fault = some f) ∧
      (∀ bytes, live.2 = .frame bytes → live.1.fault = none ∧ live.1.refusals = s.refusals) ∧
      ∀ r, live.2 = .refused r → live.1.refusals = s.refusals ++ [r]

/-- R186, R185, R187: a step that takes a block into a fault writes `FAULT` and, but for its turn, nothing else. It is the
commit of `IT = 0`, code 0x01 with the value of `IT`, taken at a commit's turn, ahead of the host's next word, or with nothing
scheduled; or the host's sample read of an unwritten cell, code 0x02 with the index. No other step raises one, a tick or a
conversion least of all. That a fault is a next state is log 10; where the commit is taken is log 8. -/
def Obligations.FaultsHaveTwoRaisers : Prop :=
  ∀ (s t : State) (f : FaultRecord), s.fault = none → step s = .next t → t.fault = some f →
    t = { s with inputs := t.inputs, fault := some f } ∧
    ((f.code.number = 0x01 ∧ f.info = s.it ∧ s.it = 0 ∧ s.stale = true ∧ s.convPend = none ∧
        (s.inputs = .commit :: t.inputs ∨
          t.inputs = s.inputs ∧ (s.inputs = [] ∨ ∃ w rest, s.inputs = .issue .host w :: rest))) ∨
      (f.code.number = 0x02 ∧ s.stale = false ∧ s.convPend = none ∧ s.buf.read f.info.toNat = none ∧
        f.info.toNat < s.cfg.cap ∧ s.inputs = .issue .host (0xC000#16 ++ f.info) :: t.inputs))

/-- R134, R25, R30, R31: `CP`, `AFE` and a cleared `STALE`, and an `AFE_SET`, come only from an enabled commit of `IT >= 1`, with
exactly its effect, or (but for `AFE_SET`) from `RESET` of the reset source. -/
def Obligations.OnlyCommitProgramsAfe : Prop :=
  ∀ s t : State, step s = .next t →
    (t.cp = s.cp ∧ t.afe = s.afe ∧ (s.stale = true → t.stale = true) ∧
      ∃ outs, t.trace = s.trace ++ outs ∧ ∀ l, .afeSet l ∉ outs) ∨
    (s.fault = none ∧ s.convPend = none ∧ s.stale = true ∧ s.it ≠ 0 ∧
      t = { s with
        inputs := t.inputs, cp := clearPeriod s.cfg s.it.toNat, afe := s.vl, stale := false
        trace := s.trace ++ [.afeSet s.vl] }) ∨
    ∃ rest, s.inputs = .issue .resetSource 0x02000000 :: rest ∧ t.trace = s.trace
end

