-- ==== Sys2Proof/Laws/Decode.lean ====
section
/-! SUPPORT. The fields of an operation word as numbers, so that facts about words become arithmetic; and what the decoder
can answer. -/

namespace Sys2Proof

variable (w : OpWord)

theorem classField_toNat : (classField w).toNat = w.toNat / 2 ^ 30 := by
  have := w.isLt
  simp [classField, Nat.shiftRight_eq_div_pow]
  omega

theorem eventField_toNat : (eventField w).toNat = w.toNat / 2 ^ 24 % 2 ^ 6 := by
  simp [eventField, Nat.shiftRight_eq_div_pow]

theorem eventReserved_toNat : (eventReserved w).toNat = w.toNat / 2 ^ 16 % 2 ^ 8 := by
  simp [eventReserved, Nat.shiftRight_eq_div_pow]

theorem accessReserved_toNat : (accessReserved w).toNat = w.toNat / 2 ^ 28 % 2 ^ 2 := by
  simp [accessReserved, Nat.shiftRight_eq_div_pow]

theorem regField_toNat : (regField w).toNat = w.toNat / 2 ^ 16 % 2 ^ 12 := by
  simp [regField, Nat.shiftRight_eq_div_pow]

theorem sampleReserved_toNat : (sampleReserved w).toNat = w.toNat / 2 ^ 16 % 2 ^ 14 := by
  simp [sampleReserved, Nat.shiftRight_eq_div_pow]

theorem dataField_toNat : (dataField w).toNat = w.toNat % 2 ^ 16 := by
  simp [dataField]

theorem dataHigh_toNat : (dataHigh w).toNat = w.toNat / 2 ^ 8 % 2 ^ 8 := by
  simp [dataHigh, Nat.shiftRight_eq_div_pow]

theorem dataLow_toNat : (dataLow w).toNat = w.toNat % 2 ^ 8 := by
  simp [dataLow]

/-- A field is a literal exactly when its number is. -/
theorem field_eq_iff {n : Nat} (x y : BitVec n) : x = y ↔ x.toNat = y.toNat := BitVec.toNat_eq

/-! ### The decoder, by the number of the word -/

theorem decode_class (cap : Nat) : decode cap w =
    if w.toNat / 2 ^ 30 = 0 then decodeEvent w
    else if w.toNat / 2 ^ 30 = 1 then decodeWrite w
    else if w.toNat / 2 ^ 30 = 2 then decodeRead w
    else decodeSampleRead cap w := by
  simp [decode, field_eq_iff (classField w), classField_toNat]

theorem decodeEvent_num (h : w.toNat / 2 ^ 30 = 0) : decodeEvent w =
    if w.toNat / 2 ^ 16 = 0x0000 ∧ w.toNat % 2 ^ 16 = 0 then .ok .tick
    else if w.toNat / 2 ^ 16 = 0x0100 then .ok (.convDone (dataField w))
    else if w.toNat / 2 ^ 16 = 0x0200 ∧ w.toNat % 2 ^ 16 = 0 then .ok .reset
    else .error .reservedEncoding := by
  simp only [decodeEvent, ne_eq, field_eq_iff, eventReserved_toNat, eventField_toNat, dataField_toNat,
    BitVec.ofNat_eq_ofNat, BitVec.toNat_ofNat]
  repeat' split
  all_goals first | rfl | (exfalso; omega)

theorem decodeWrite_num (h : w.toNat / 2 ^ 30 = 1) : decodeWrite w =
    if w.toNat / 2 ^ 16 = 0x4000 then .ok (.wrIt (dataField w))
    else if w.toNat / 2 ^ 16 = 0x4001 ∧ w.toNat / 2 ^ 8 % 2 ^ 8 = 0 then .ok (.wrHlevel (dataLow w))
    else if w.toNat / 2 ^ 16 = 0x4002 ∧ w.toNat / 2 ^ 8 % 2 ^ 8 = 0 then .ok (.wrVlevel (dataLow w))
    else if 0x4003 ≤ w.toNat / 2 ^ 16 ∧ w.toNat / 2 ^ 16 ≤ 0x4008 then .error .writeReadOnly
    else .error .reservedEncoding := by
  simp only [decodeWrite, ne_eq, field_eq_iff, accessReserved_toNat, regField_toNat, dataHigh_toNat,
    BitVec.ofNat_eq_ofNat, BitVec.toNat_ofNat]
  repeat' split
  all_goals first | rfl | (exfalso; omega)

theorem decodeRead_num (h : w.toNat / 2 ^ 30 = 2) : decodeRead w =
    if w.toNat % 2 ^ 16 ≠ 0 then .error .reservedEncoding
    else if w.toNat / 2 ^ 16 = 0x8000 then .ok .rdIt
    else if w.toNat / 2 ^ 16 = 0x8001 then .ok .rdHlevel
    else if w.toNat / 2 ^ 16 = 0x8002 then .ok .rdVlevel
    else if w.toNat / 2 ^ 16 = 0x8003 then .ok .rdCp
    else if w.toNat / 2 ^ 16 = 0x8004 then .ok .rdItc
    else if w.toNat / 2 ^ 16 = 0x8005 then .ok .rdCpc
    else if w.toNat / 2 ^ 16 = 0x8006 then .ok .rdStatus
    else if w.toNat / 2 ^ 16 = 0x8007 then .ok .rdCur
    else if w.toNat / 2 ^ 16 = 0x8008 then .ok .rdAfe
    else .error .reservedEncoding := by
  simp only [decodeRead, ne_eq, field_eq_iff, accessReserved_toNat, regField_toNat, dataField_toNat,
    BitVec.ofNat_eq_ofNat, BitVec.toNat_ofNat]
  by_cases hd : w.toNat % 2 ^ 16 = 0
  · by_cases hr : w.toNat / 2 ^ 28 % 2 ^ 2 = 0
    · have eqs : ∀ k, k < 4096 → (w.toNat / 65536 % 4096 = k ↔ w.toNat / 65536 = 32768 + k) := fun k hk => by omega
      rw [if_neg (by rintro (h' | h') <;> contradiction), if_neg (fun h' : ¬w.toNat % 2 ^ 16 = 0 => h' hd)]
      simp only [Nat.reducePow, Nat.reduceMod]
      simp only [eqs 0, eqs 1, eqs 2, eqs 3, eqs 4, eqs 5, eqs 6, eqs 7, eqs 8, Nat.reduceLT, Nat.reduceAdd,
        Nat.ofNat_pos, Nat.one_lt_ofNat]
    · rw [if_pos (.inl (by simpa using hr)), if_neg (by simpa using hd)]
      repeat rw [if_neg (by omega)]
  · rw [if_pos (.inr (by simpa using hd)), if_pos hd]

theorem decodeSampleRead_num (cap : Nat) (h : w.toNat / 2 ^ 30 = 3) : decodeSampleRead cap w =
    if w.toNat / 2 ^ 16 ≠ 0xC000 then .error .reservedEncoding
    else if cap ≤ w.toNat % 2 ^ 16 then .error .indexOutOfRange
    else .ok (.rdSample (dataField w)) := by
  simp only [decodeSampleRead, ne_eq, field_eq_iff, sampleReserved_toNat, dataField_toNat,
    BitVec.ofNat_eq_ofNat, BitVec.toNat_ofNat]
  repeat' split
  all_goals first | rfl | (exfalso; omega)

/-! ### Words from their halves -/

/-- The number of a word written as two halves, as every layout of `Instr.encode` is. -/
theorem halves_toNat (a b : Data16) : (halves a b).toNat = a.toNat * 2 ^ 16 + b.toNat := by
  have := b.isLt
  rw [halves, BitVec.toNat_append, ← Nat.shiftLeft_add_eq_or_of_lt this, Nat.shiftLeft_eq]

/-- The number of an 8-bit level in the low byte of a half. -/
theorem levelData_toNat (v : Byte) : (levelData v).toNat = v.toNat := by
  have := v.isLt
  rw [levelData, BitVec.toNat_append, ← Nat.shiftLeft_add_eq_or_of_lt this, Nat.shiftLeft_eq]
  simp

theorem dataField_halves (a b : Data16) : dataField (halves a b) = b := by
  apply BitVec.eq_of_toNat_eq
  rw [dataField_toNat, halves_toNat]
  have := b.isLt
  omega

theorem dataLow_halves (a : Data16) (v : Byte) : dataLow (halves a (levelData v)) = v := by
  apply BitVec.eq_of_toNat_eq
  rw [dataLow_toNat, halves_toNat, levelData_toNat]
  have := v.isLt
  omega

/-! ### The masks of the opcode map, as numbers -/

theorem and_mask_all : w &&& 0xFFFFFFFF#32 = w := by
  apply BitVec.eq_of_getLsbD_eq
  intro i hi
  interval_cases i <;> simp

theorem and_mask_high16 : w &&& 0xFFFF0000#32 = (w >>> 16) <<< 16 := by
  apply BitVec.eq_of_getLsbD_eq
  intro i hi
  interval_cases i <;> simp

theorem and_mask_high24 : w &&& 0xFFFFFF00#32 = (w >>> 8) <<< 8 := by
  apply BitVec.eq_of_getLsbD_eq
  intro i hi
  interval_cases i <;> simp

/-- Masking with 0xFFFF0000 compares the high half. -/
theorem and_mask_high16_eq (p : OpWord) :
    w &&& 0xFFFF0000#32 = p ↔ w.toNat / 2 ^ 16 * 2 ^ 16 = p.toNat := by
  have := w.isLt
  rw [and_mask_high16, BitVec.toNat_eq]
  simp only [BitVec.toNat_shiftLeft, BitVec.toNat_ushiftRight, Nat.shiftLeft_eq, Nat.shiftRight_eq_div_pow]
  omega

/-- Masking with 0xFFFFFF00 compares all but the low byte. -/
theorem and_mask_high24_eq (p : OpWord) :
    w &&& 0xFFFFFF00#32 = p ↔ w.toNat / 2 ^ 8 * 2 ^ 8 = p.toNat := by
  have := w.isLt
  rw [and_mask_high24, BitVec.toNat_eq]
  simp only [BitVec.toNat_shiftLeft, BitVec.toNat_ushiftRight, Nat.shiftLeft_eq, Nat.shiftRight_eq_div_pow]
  omega

/-- The rows of the opcode map that accept a word, by the word's number. -/
theorem opcodeTable_forall (P : OpcodeRow → Prop) :
   (∀ row ∈ opcodeTable, row.accepts w = true → P row) ↔
   (w.toNat = 0 → P ⟨.tick, 0x00000000#32, 0xFFFFFFFF#32⟩) ∧
   (w.toNat / 2^16 = 0x100 → P ⟨.convDone, 0x01000000#32, 0xFFFF0000#32⟩) ∧
   (w.toNat = 0x02000000 → P ⟨.reset, 0x02000000#32, 0xFFFFFFFF#32⟩) ∧
   (w.toNat / 2^16 = 0x4000 → P ⟨.wrIt, 0x40000000#32, 0xFFFF0000#32⟩) ∧
   (w.toNat / 2^8 = 0x400100 → P ⟨.wrHlevel, 0x40010000#32, 0xFFFFFF00#32⟩) ∧
   (w.toNat / 2^8 = 0x400200 → P ⟨.wrVlevel, 0x40020000#32, 0xFFFFFF00#32⟩) ∧
   (w.toNat = 0x80000000 → P ⟨.rdIt, 0x80000000#32, 0xFFFFFFFF#32⟩) ∧
   (w.toNat = 0x80010000 → P ⟨.rdHlevel, 0x80010000#32, 0xFFFFFFFF#32⟩) ∧
   (w.toNat = 0x80020000 → P ⟨.rdVlevel, 0x80020000#32, 0xFFFFFFFF#32⟩) ∧
   (w.toNat = 0x80030000 → P ⟨.rdCp, 0x80030000#32, 0xFFFFFFFF#32⟩) ∧
   (w.toNat = 0x80040000 → P ⟨.rdItc, 0x80040000#32, 0xFFFFFFFF#32⟩) ∧
   (w.toNat = 0x80050000 → P ⟨.rdCpc, 0x80050000#32, 0xFFFFFFFF#32⟩) ∧
   (w.toNat = 0x80060000 → P ⟨.rdStatus, 0x80060000#32, 0xFFFFFFFF#32⟩) ∧
   (w.toNat = 0x80070000 → P ⟨.rdCur, 0x80070000#32, 0xFFFFFFFF#32⟩) ∧
   (w.toNat = 0x80080000 → P ⟨.rdAfe, 0x80080000#32, 0xFFFFFFFF#32⟩) ∧
   (w.toNat / 2^16 = 0xC000 → P ⟨.rdSample, 0xC0000000#32, 0xFFFF0000#32⟩) := by
  have e16 : ∀ p q : Nat, p < 65536 → q = p * 65536 → (w &&& 0xFFFF0000#32 = BitVec.ofNat 32 q ↔ w.toNat / 2^16 = p) := fun p q hp hq => by
    rw [and_mask_high16_eq]; have := w.isLt; simp; omega
  have e24 : ∀ p q : Nat, p < 16777216 → q = p * 256 → (w &&& 0xFFFFFF00#32 = BitVec.ofNat 32 q ↔ w.toNat / 2^8 = p) := fun p q hp hq => by
    rw [and_mask_high24_eq]; have := w.isLt; simp; omega
  have e32 : ∀ q : Nat, q < 2^32 → (w = BitVec.ofNat 32 q ↔ w.toNat = q) := fun q hq => by
    rw [BitVec.toNat_eq]; simp; omega
  simp only [opcodeTable, List.forall_mem_cons, OpcodeRow.accepts, beq_iff_eq, and_mask_all,
    e16 0x100 0x01000000 (by decide) (by decide), e16 0x4000 0x40000000 (by decide) (by decide), e16 0xC000 0xC0000000 (by decide) (by decide),
    e24 0x400100 0x40010000 (by decide) (by decide), e24 0x400200 0x40020000 (by decide) (by decide), e32 0 (by decide), e32 0x02000000 (by decide), e32 0x80000000 (by decide), e32 0x80010000 (by decide), e32 0x80020000 (by decide), e32 0x80030000 (by decide), e32 0x80040000 (by decide), e32 0x80050000 (by decide), e32 0x80060000 (by decide), e32 0x80070000 (by decide), e32 0x80080000 (by decide), List.not_mem_nil, false_implies, implies_true, and_true, Nat.reducePow]

end Sys2Proof
end

