-- ==== Sys2Proof/Laws/State.lean ====
section
/-! SUPPORT. One lemma per field and named update of the state, true by unfolding, so that no proof unfolds a record update. -/

namespace Sys2Proof.Machine

variable (s : State)

@[simp] theorem State.emit_cfg (o : Output) : (s.emit o).cfg = s.cfg := rfl
@[simp] theorem State.emit_it (o : Output) : (s.emit o).it = s.it := rfl
@[simp] theorem State.emit_hl (o : Output) : (s.emit o).hl = s.hl := rfl
@[simp] theorem State.emit_vl (o : Output) : (s.emit o).vl = s.vl := rfl
@[simp] theorem State.emit_cp (o : Output) : (s.emit o).cp = s.cp := rfl
@[simp] theorem State.emit_itc (o : Output) : (s.emit o).itc = s.itc := rfl
@[simp] theorem State.emit_cpc (o : Output) : (s.emit o).cpc = s.cpc := rfl
@[simp] theorem State.emit_clr (o : Output) : (s.emit o).clr = s.clr := rfl
@[simp] theorem State.emit_cur (o : Output) : (s.emit o).cur = s.cur := rfl
@[simp] theorem State.emit_afe (o : Output) : (s.emit o).afe = s.afe := rfl
@[simp] theorem State.emit_buf (o : Output) : (s.emit o).buf = s.buf := rfl
@[simp] theorem State.emit_stale (o : Output) : (s.emit o).stale = s.stale := rfl
@[simp] theorem State.emit_convPend (o : Output) : (s.emit o).convPend = s.convPend := rfl
@[simp] theorem State.emit_fault (o : Output) : (s.emit o).fault = s.fault := rfl
@[simp] theorem State.emit_refusals (o : Output) : (s.emit o).refusals = s.refusals := rfl
@[simp] theorem State.emit_trace (o : Output) : (s.emit o).trace = s.trace ++ [o] := rfl
@[simp] theorem State.emit_inputs (o : Output) : (s.emit o).inputs = s.inputs := rfl
@[simp] theorem State.emit_draws (o : Output) : (s.emit o).draws = s.draws := rfl

@[simp] theorem State.writeCell_cfg (i : Nat) (v : Data16) : (s.writeCell i v).cfg = s.cfg := rfl
@[simp] theorem State.writeCell_it (i : Nat) (v : Data16) : (s.writeCell i v).it = s.it := rfl
@[simp] theorem State.writeCell_hl (i : Nat) (v : Data16) : (s.writeCell i v).hl = s.hl := rfl
@[simp] theorem State.writeCell_vl (i : Nat) (v : Data16) : (s.writeCell i v).vl = s.vl := rfl
@[simp] theorem State.writeCell_cp (i : Nat) (v : Data16) : (s.writeCell i v).cp = s.cp := rfl
@[simp] theorem State.writeCell_itc (i : Nat) (v : Data16) : (s.writeCell i v).itc = s.itc := rfl
@[simp] theorem State.writeCell_cpc (i : Nat) (v : Data16) : (s.writeCell i v).cpc = s.cpc := rfl
@[simp] theorem State.writeCell_clr (i : Nat) (v : Data16) : (s.writeCell i v).clr = s.clr := rfl
@[simp] theorem State.writeCell_cur (i : Nat) (v : Data16) : (s.writeCell i v).cur = s.cur := rfl
@[simp] theorem State.writeCell_afe (i : Nat) (v : Data16) : (s.writeCell i v).afe = s.afe := rfl
@[simp] theorem State.writeCell_buf (i : Nat) (v : Data16) : (s.writeCell i v).buf = s.buf.write i v := rfl
@[simp] theorem State.writeCell_stale (i : Nat) (v : Data16) : (s.writeCell i v).stale = s.stale := rfl
@[simp] theorem State.writeCell_convPend (i : Nat) (v : Data16) : (s.writeCell i v).convPend = s.convPend := rfl
@[simp] theorem State.writeCell_fault (i : Nat) (v : Data16) : (s.writeCell i v).fault = s.fault := rfl
@[simp] theorem State.writeCell_refusals (i : Nat) (v : Data16) : (s.writeCell i v).refusals = s.refusals := rfl
@[simp] theorem State.writeCell_trace (i : Nat) (v : Data16) : (s.writeCell i v).trace = s.trace := rfl
@[simp] theorem State.writeCell_inputs (i : Nat) (v : Data16) : (s.writeCell i v).inputs = s.inputs := rfl
@[simp] theorem State.writeCell_draws (i : Nat) (v : Data16) : (s.writeCell i v).draws = s.draws := rfl

@[simp] theorem State.raise_cfg (k : FaultCode) (x : Data16) : (s.raise k x).cfg = s.cfg := rfl
@[simp] theorem State.raise_it (k : FaultCode) (x : Data16) : (s.raise k x).it = s.it := rfl
@[simp] theorem State.raise_hl (k : FaultCode) (x : Data16) : (s.raise k x).hl = s.hl := rfl
@[simp] theorem State.raise_vl (k : FaultCode) (x : Data16) : (s.raise k x).vl = s.vl := rfl
@[simp] theorem State.raise_cp (k : FaultCode) (x : Data16) : (s.raise k x).cp = s.cp := rfl
@[simp] theorem State.raise_itc (k : FaultCode) (x : Data16) : (s.raise k x).itc = s.itc := rfl
@[simp] theorem State.raise_cpc (k : FaultCode) (x : Data16) : (s.raise k x).cpc = s.cpc := rfl
@[simp] theorem State.raise_clr (k : FaultCode) (x : Data16) : (s.raise k x).clr = s.clr := rfl
@[simp] theorem State.raise_cur (k : FaultCode) (x : Data16) : (s.raise k x).cur = s.cur := rfl
@[simp] theorem State.raise_afe (k : FaultCode) (x : Data16) : (s.raise k x).afe = s.afe := rfl
@[simp] theorem State.raise_buf (k : FaultCode) (x : Data16) : (s.raise k x).buf = s.buf := rfl
@[simp] theorem State.raise_stale (k : FaultCode) (x : Data16) : (s.raise k x).stale = s.stale := rfl
@[simp] theorem State.raise_convPend (k : FaultCode) (x : Data16) : (s.raise k x).convPend = s.convPend := rfl
@[simp] theorem State.raise_fault (k : FaultCode) (x : Data16) : (s.raise k x).fault = some ⟨k, x⟩ := rfl
@[simp] theorem State.raise_refusals (k : FaultCode) (x : Data16) : (s.raise k x).refusals = s.refusals := rfl
@[simp] theorem State.raise_trace (k : FaultCode) (x : Data16) : (s.raise k x).trace = s.trace := rfl
@[simp] theorem State.raise_inputs (k : FaultCode) (x : Data16) : (s.raise k x).inputs = s.inputs := rfl
@[simp] theorem State.raise_draws (k : FaultCode) (x : Data16) : (s.raise k x).draws = s.draws := rfl

@[simp] theorem State.refuse_cfg (r : RefuseReason) : (s.refuse r).cfg = s.cfg := rfl
@[simp] theorem State.refuse_it (r : RefuseReason) : (s.refuse r).it = s.it := rfl
@[simp] theorem State.refuse_hl (r : RefuseReason) : (s.refuse r).hl = s.hl := rfl
@[simp] theorem State.refuse_vl (r : RefuseReason) : (s.refuse r).vl = s.vl := rfl
@[simp] theorem State.refuse_cp (r : RefuseReason) : (s.refuse r).cp = s.cp := rfl
@[simp] theorem State.refuse_itc (r : RefuseReason) : (s.refuse r).itc = s.itc := rfl
@[simp] theorem State.refuse_cpc (r : RefuseReason) : (s.refuse r).cpc = s.cpc := rfl
@[simp] theorem State.refuse_clr (r : RefuseReason) : (s.refuse r).clr = s.clr := rfl
@[simp] theorem State.refuse_cur (r : RefuseReason) : (s.refuse r).cur = s.cur := rfl
@[simp] theorem State.refuse_afe (r : RefuseReason) : (s.refuse r).afe = s.afe := rfl
@[simp] theorem State.refuse_buf (r : RefuseReason) : (s.refuse r).buf = s.buf := rfl
@[simp] theorem State.refuse_stale (r : RefuseReason) : (s.refuse r).stale = s.stale := rfl
@[simp] theorem State.refuse_convPend (r : RefuseReason) : (s.refuse r).convPend = s.convPend := rfl
@[simp] theorem State.refuse_fault (r : RefuseReason) : (s.refuse r).fault = s.fault := rfl
@[simp] theorem State.refuse_refusals (r : RefuseReason) : (s.refuse r).refusals = s.refusals ++ [r] := rfl
@[simp] theorem State.refuse_trace (r : RefuseReason) : (s.refuse r).trace = s.trace := rfl
@[simp] theorem State.refuse_inputs (r : RefuseReason) : (s.refuse r).inputs = s.inputs := rfl
@[simp] theorem State.refuse_draws (r : RefuseReason) : (s.refuse r).draws = s.draws := rfl

@[simp] theorem State.setInputs_cfg (rest : List Turn) : (s.setInputs rest).cfg = s.cfg := rfl
@[simp] theorem State.setInputs_it (rest : List Turn) : (s.setInputs rest).it = s.it := rfl
@[simp] theorem State.setInputs_hl (rest : List Turn) : (s.setInputs rest).hl = s.hl := rfl
@[simp] theorem State.setInputs_vl (rest : List Turn) : (s.setInputs rest).vl = s.vl := rfl
@[simp] theorem State.setInputs_cp (rest : List Turn) : (s.setInputs rest).cp = s.cp := rfl
@[simp] theorem State.setInputs_itc (rest : List Turn) : (s.setInputs rest).itc = s.itc := rfl
@[simp] theorem State.setInputs_cpc (rest : List Turn) : (s.setInputs rest).cpc = s.cpc := rfl
@[simp] theorem State.setInputs_clr (rest : List Turn) : (s.setInputs rest).clr = s.clr := rfl
@[simp] theorem State.setInputs_cur (rest : List Turn) : (s.setInputs rest).cur = s.cur := rfl
@[simp] theorem State.setInputs_afe (rest : List Turn) : (s.setInputs rest).afe = s.afe := rfl
@[simp] theorem State.setInputs_buf (rest : List Turn) : (s.setInputs rest).buf = s.buf := rfl
@[simp] theorem State.setInputs_stale (rest : List Turn) : (s.setInputs rest).stale = s.stale := rfl
@[simp] theorem State.setInputs_convPend (rest : List Turn) : (s.setInputs rest).convPend = s.convPend := rfl
@[simp] theorem State.setInputs_fault (rest : List Turn) : (s.setInputs rest).fault = s.fault := rfl
@[simp] theorem State.setInputs_refusals (rest : List Turn) : (s.setInputs rest).refusals = s.refusals := rfl
@[simp] theorem State.setInputs_trace (rest : List Turn) : (s.setInputs rest).trace = s.trace := rfl
@[simp] theorem State.setInputs_inputs (rest : List Turn) : (s.setInputs rest).inputs = rest := rfl
@[simp] theorem State.setInputs_draws (rest : List Turn) : (s.setInputs rest).draws = s.draws := rfl

@[simp] theorem assertClear_cfg : (assertClear s).cfg = s.cfg := rfl
@[simp] theorem assertClear_it : (assertClear s).it = s.it := rfl
@[simp] theorem assertClear_hl : (assertClear s).hl = s.hl := rfl
@[simp] theorem assertClear_vl : (assertClear s).vl = s.vl := rfl
@[simp] theorem assertClear_cp : (assertClear s).cp = s.cp := rfl
@[simp] theorem assertClear_itc : (assertClear s).itc = s.itc := rfl
@[simp] theorem assertClear_cpc : (assertClear s).cpc = s.cpc := rfl
@[simp] theorem assertClear_clr : (assertClear s).clr = true := rfl
@[simp] theorem assertClear_cur : (assertClear s).cur = 0 := rfl
@[simp] theorem assertClear_afe : (assertClear s).afe = s.afe := rfl
@[simp] theorem assertClear_buf : (assertClear s).buf = s.buf := rfl
@[simp] theorem assertClear_stale : (assertClear s).stale = s.stale := rfl
@[simp] theorem assertClear_convPend : (assertClear s).convPend = s.convPend := rfl
@[simp] theorem assertClear_fault : (assertClear s).fault = s.fault := rfl
@[simp] theorem assertClear_refusals : (assertClear s).refusals = s.refusals := rfl
@[simp] theorem assertClear_trace : (assertClear s).trace = s.trace ++ [.clrAssert, .cursorReset] := rfl
@[simp] theorem assertClear_inputs : (assertClear s).inputs = s.inputs := rfl
@[simp] theorem assertClear_draws : (assertClear s).draws = s.draws := rfl

@[simp] theorem deassertClear_cfg : (deassertClear s).cfg = s.cfg := rfl
@[simp] theorem deassertClear_it : (deassertClear s).it = s.it := rfl
@[simp] theorem deassertClear_hl : (deassertClear s).hl = s.hl := rfl
@[simp] theorem deassertClear_vl : (deassertClear s).vl = s.vl := rfl
@[simp] theorem deassertClear_cp : (deassertClear s).cp = s.cp := rfl
@[simp] theorem deassertClear_itc : (deassertClear s).itc = s.itc := rfl
@[simp] theorem deassertClear_cpc : (deassertClear s).cpc = s.cpc := rfl
@[simp] theorem deassertClear_clr : (deassertClear s).clr = false := rfl
@[simp] theorem deassertClear_cur : (deassertClear s).cur = s.cur := rfl
@[simp] theorem deassertClear_afe : (deassertClear s).afe = s.afe := rfl
@[simp] theorem deassertClear_buf : (deassertClear s).buf = s.buf := rfl
@[simp] theorem deassertClear_stale : (deassertClear s).stale = s.stale := rfl
@[simp] theorem deassertClear_convPend : (deassertClear s).convPend = s.convPend := rfl
@[simp] theorem deassertClear_fault : (deassertClear s).fault = s.fault := rfl
@[simp] theorem deassertClear_refusals : (deassertClear s).refusals = s.refusals := rfl
@[simp] theorem deassertClear_trace : (deassertClear s).trace = s.trace ++ [.clrDeassert] := rfl
@[simp] theorem deassertClear_inputs : (deassertClear s).inputs = s.inputs := rfl
@[simp] theorem deassertClear_draws : (deassertClear s).draws = s.draws := rfl

end Sys2Proof.Machine
end

