-- ==== Sys2Proof/Laws/Ops.lean ====
section
/-! SUPPORT. What the shared operations do, once each: the comparison, the sample buffer, the holds. -/

namespace Sys2Proof.Machine

/-! ### cmp (R9) -/

theorem reaches_of_eq {c : Config} (h : c.compareMode = .eq) (a b : Nat) : reaches c a b = decide (a = b) := by
  simp [reaches, h]

theorem reaches_of_ge {c : Config} (h : c.compareMode = .ge) (a b : Nat) : reaches c a b = decide (b ≤ a) := by
  simp [reaches, h]

/-- In either mode a value below the bound does not reach it. -/
theorem reaches_of_lt {c : Config} {a b : Nat} (h : a < b) : reaches c a b = false := by
  unfold reaches
  split <;> simp <;> omega

/-- In either mode a value reaches itself. -/
@[simp] theorem reaches_self (c : Config) (a : Nat) : reaches c a a = true := by
  unfold reaches
  split <;> simp

/-! ### The sample buffer (R51 to R53) -/

@[simp] theorem Memory.read_nil (i : Nat) : Memory.read [] i = none := rfl

/-- A read after a write: the cell written reads as the value, every other cell as before. It needs no premise. -/
theorem Memory.read_write (m : Memory) (i : Nat) (v : Data16) (j : Nat) :
    (m.write i v).read j = if j = i then some v else m.read j := by
  induction m with
  | nil => simp [Memory.write, Memory.read, eq_comm]
  | cons e m ih =>
    obtain ⟨k, u⟩ := e
    rcases Nat.lt_trichotomy i k with h | h | h
    · simp only [Memory.write, if_pos h, Memory.read, eq_comm (a := i) (b := j)]
    · subst h
      simp only [Memory.write, Nat.lt_irrefl, if_false, if_true, Memory.read, eq_comm (a := i) (b := j)]
      split <;> rfl
    · simp only [Memory.write, Nat.not_lt_of_gt h, if_false, Nat.ne_of_gt h, Memory.read, ih]
      split <;> split <;> first | rfl | omega

@[simp] theorem Memory.read_write_same (m : Memory) (i : Nat) (v : Data16) : (m.write i v).read i = some v := by
  simp [Memory.read_write]

/-- The entries of a written buffer: the new one, or old ones. -/
theorem Memory.mem_write {m : Memory} {i : Nat} {v : Data16} {e : Nat × Data16} (h : e ∈ m.write i v) :
    e = (i, v) ∨ e ∈ m := by
  induction m with
  | nil => simpa [Memory.write] using h
  | cons d m ih =>
    obtain ⟨k, u⟩ := d
    unfold Memory.write at h
    split at h
    · simpa using h
    · split at h
      · rcases List.mem_cons.mp h with h | h
        · exact .inl h
        · exact .inr (List.mem_cons_of_mem _ h)
      · rcases List.mem_cons.mp h with h | h
        · exact .inr (h ▸ List.mem_cons_self)
        · exact (ih h).imp_right (List.mem_cons_of_mem _)

/-- The canonical form, one entry at a time: the tail is canonical and every index in it is above the head's. -/
theorem Memory.wf_cons {i : Nat} {v : Data16} {m : Memory} :
    Memory.wf ((i, v) :: m) = true ↔ Memory.wf m = true ∧ ∀ e ∈ m, i < e.1 := by
  induction m generalizing i v with
  | nil => simp [Memory.wf]
  | cons d m ih =>
    obtain ⟨j, u⟩ := d
    simp only [Memory.wf, Bool.and_eq_true, decide_eq_true_eq, List.forall_mem_cons]
    constructor
    · rintro ⟨hij, hm⟩
      exact ⟨hm, hij, fun e he => Nat.lt_trans hij ((ih.mp hm).2 e he)⟩
    · rintro ⟨hm, hij, -⟩
      exact ⟨hij, hm⟩

/-- Writing keeps the canonical form. -/
theorem Memory.write_wf {m : Memory} {i : Nat} {v : Data16} (h : m.wf = true) : (m.write i v).wf = true := by
  induction m with
  | nil => rfl
  | cons d m ih =>
    obtain ⟨k, u⟩ := d
    obtain ⟨hm, hk⟩ := Memory.wf_cons.mp h
    unfold Memory.write
    split
    · next hik => exact Memory.wf_cons.mpr ⟨h, by
        rintro e he
        rcases List.mem_cons.mp he with rfl | he
        · exact hik
        · exact Nat.lt_trans hik (hk e he)⟩
    · split
      · next hik => exact Memory.wf_cons.mpr ⟨hm, fun e he => hik ▸ hk e he⟩
      · exact Memory.wf_cons.mpr ⟨ih hm, fun e he => by
          rcases Memory.mem_write he with rfl | he
          · show k < i
            omega
          · exact hk e he⟩

/-- Writing below a bound keeps every index below it. -/
theorem Memory.write_below {m : Memory} {i n : Nat} {v : Data16} (hi : i < n) (h : ∀ e ∈ m, e.1 < n) :
    ∀ e ∈ m.write i v, e.1 < n := fun e he => by
  rcases Memory.mem_write he with rfl | he
  · exact hi
  · exact h e he

/-- The buffer at power-on, and after `RESET`, is canonical. -/
theorem resetFor_buf_wf (c : Config) : (State.resetFor c).buf.wf = true := rfl

theorem resetBlock_buf_wf (s : State) : (resetBlock s).buf.wf = true := rfl

/-! ### Holds (R189) -/

@[simp] theorem readiness_resetSource (s : State) : readiness .resetSource s = .ready := rfl

theorem readiness_tickSource {s : State} (h : s.fault = none) : readiness .tickSource s = .ready := by
  simp [readiness, h]

theorem readiness_converter {s : State} (h : s.fault = none) (hp : s.convPend = none) :
    readiness .converter s = .ready := by
  simp [readiness, h, hp]

theorem readiness_host {s : State} (h : s.fault = none) (hp : s.convPend = none) (hs : s.stale = false) :
    readiness .host s = .ready := by
  simp [readiness, h, hp, hs]

/-- A faulted block halts every agent but the reset source. -/
theorem readiness_halted {s : State} {a : Agent} (h : s.fault ≠ none) (ha : a ≠ .resetSource) :
    readiness a s = .halted := by
  cases a <;> simp_all [readiness, Option.isSome_iff_ne_none]

/-- What each answer of `readiness` says of the state. -/
theorem readiness_cases (a : Agent) (s : State) :
    (readiness a s = .ready ∧ (a = .resetSource ∨ s.fault = none) ∧
      ((a = .host ∨ a = .converter) → s.convPend = none) ∧ (a = .host → s.stale = false)) ∨
    (readiness a s = .halted ∧ s.fault ≠ none ∧ a ≠ .resetSource) ∨
    (readiness a s = .awaitsAdvance ∧ s.fault = none ∧ s.convPend ≠ none ∧ (a = .host ∨ a = .converter)) ∨
    (readiness a s = .awaitsCommit ∧ s.fault = none ∧ s.convPend = none ∧ s.stale = true ∧ a = .host) := by
  cases hf : s.fault <;> cases hp : s.convPend <;> cases hs : s.stale <;> cases a <;> simp [readiness, hf, hp, hs]

theorem readiness_setInputs (a : Agent) (rest : List Turn) (s : State) :
    readiness a (s.setInputs rest) = readiness a s := by
  cases a <;> rfl

/-- An operation of an agent that has a step has its effect. -/
theorem whenReady_ready {a : Agent} {s : State} (h : readiness a s = .ready) (body : State → State) :
    whenReady a body s = .next (body s) := by
  simp [whenReady, h]

/-- An operation of a held agent changes nothing. -/
theorem whenReady_held {a : Agent} {s : State} (h : readiness a s ≠ .ready) (body : State → State) :
    whenReady a body s = .next s := by
  unfold whenReady
  split <;> first | rfl | contradiction

/-- All an operation can answer: its effect where its agent has a step, else the state itself. -/
theorem whenReady_next {a : Agent} {body : State → State} {s t : State} (h : whenReady a body s = .next t) :
    (readiness a s = .ready ∧ t = body s) ∨ (readiness a s ≠ .ready ∧ t = s) := by
  by_cases hr : readiness a s = .ready
  · rw [whenReady_ready hr] at h
    injection h with h
    exact .inl ⟨hr, h.symm⟩
  · rw [whenReady_held hr] at h
    injection h with h
    exact .inr ⟨hr, h.symm⟩

end Sys2Proof.Machine
end

