-- ==== Sys2Proof/Laws/Exec.lean ====
section
/-! SUPPORT. What executing an operation can do, said once: every operation is its effect where its agent has a step, and
nothing where it is held (R189). -/

namespace Sys2Proof.Machine

/-- The effect of each operation on a state in which its agent has a step. -/
def effect : Instr → State → State
  | .tick => tick
  | .convDone code => convDone code
  | .reset => resetBlock
  | .wrIt v => fun s => { s with it := v, stale := true }
  | .wrHlevel v => fun s => { s with hl := v }
  | .wrVlevel v => fun s => { s with vl := v }
  | .rdIt => readRegister .it
  | .rdHlevel => readRegister .hl
  | .rdVlevel => readRegister .vl
  | .rdCp => readRegister .cp
  | .rdItc => readRegister .itc
  | .rdCpc => readRegister .cpc
  | .rdStatus => readRegister .status
  | .rdCur => readRegister .cur
  | .rdAfe => readRegister .afe
  | .rdSample i => readSample i

/-- Every meaning is its effect behind the holds of its agent. -/
theorem exec_eq_whenReady (i : Instr) (s : State) : exec i s = whenReady i.issuer (effect i) s := by
  cases i <;> rfl

theorem exec_ready {i : Instr} {s : State} (h : readiness i.issuer s = .ready) : exec i s = .next (effect i s) := by
  rw [exec_eq_whenReady, whenReady_ready h]

theorem exec_held {i : Instr} {s : State} (h : readiness i.issuer s ≠ .ready) : exec i s = .next s := by
  rw [exec_eq_whenReady, whenReady_held h]

/-- All an operation can answer. -/
theorem exec_next {i : Instr} {s t : State} (h : exec i s = .next t) :
    (readiness i.issuer s = .ready ∧ t = effect i s) ∨ (readiness i.issuer s ≠ .ready ∧ t = s) :=
  whenReady_next (exec_eq_whenReady i s ▸ h)

/-- Every operation answers some next state. -/
theorem exec_exists_next (i : Instr) (s : State) : ∃ t, exec i s = .next t := by
  by_cases h : readiness i.issuer s = .ready
  · exact ⟨_, exec_ready h⟩
  · exact ⟨_, exec_held h⟩

/-- The read of a register is `readRegister`. -/
theorem effect_readInstr (r : Reg) : effect r.readInstr = readRegister r := by
  cases r <;> rfl

theorem issuer_readInstr (r : Reg) : r.readInstr.issuer = .host := by
  cases r <;> rfl

/-! ### The parts of a tick (R91, R92, R93, R95, R96) -/

/-- The clear-assert test, field by field. -/
theorem clearAssertTest_eq (place : ClearAssertPhase) (s : State) : clearAssertTest place s =
    let hit : Bool := decide (s.cfg.clearAssertPhase = place ∧ s.itc = 0 ∧ s.clr = false)
    { s with clr := hit || s.clr, cur := if hit then 0 else s.cur
             trace := s.trace ++ if hit then [.clrAssert, .cursorReset] else [] } := by
  unfold clearAssertTest
  split
  · next h => simp [h, assertClear]
  · next h => simp [h]

/-- The rollover test, field by field. -/
theorem shiftRollover_eq (s : State) : shiftRollover s =
    let hit := reaches s.cfg s.itc s.it.toNat
    { s with itc := if hit then 0 else s.itc, cpc := if hit then trunc s.cfg.wCnt (s.cpc + 1) else s.cpc
             trace := s.trace ++ if hit then [.shFire] else [] } := by
  unfold shiftRollover
  cases reaches s.cfg s.itc s.it.toNat <;> simp

/-- The clear-cycle test, field by field. -/
theorem clearCycleEnd_eq (s : State) : clearCycleEnd s =
    let hit := reaches s.cfg s.cpc s.cp.toNat
    { s with cpc := if hit then 0 else s.cpc, clr := !hit && s.clr
             trace := s.trace ++ if hit then [.clrDeassert] else [] } := by
  unfold clearCycleEnd
  cases reaches s.cfg s.cpc s.cp.toNat <;> simp [deassertClear]

/-- A tick writes `ITC`, `CPC`, `CLR`, `CUR` and the trace, and nothing else (R90). -/
theorem tick_frame (s : State) :
    tick s = { s with itc := (tick s).itc, cpc := (tick s).cpc, clr := (tick s).clr, cur := (tick s).cur
                      trace := (tick s).trace } := by
  simp only [tick, clearAssertTest_eq, shiftRollover_eq, clearCycleEnd_eq, countTick]

/-! ### The other effects with several outcomes -/

/-- A conversion is stored and advances the cursor, is stored and latched, or is discarded (R110, R117). -/
theorem convDone_cases (code : Data16) (s : State) :
    (s.cur.toNat < s.cfg.cap ∧ s.cfg.eventAtomicity = .atomic ∧
      convDone code s = { s.writeCell s.cur.toNat code with cur := s.cur + 1 }) ∨
    (s.cur.toNat < s.cfg.cap ∧ s.cfg.eventAtomicity = .interleaved ∧
      convDone code s = { s.writeCell s.cur.toNat code with convPend := some s.cur }) ∨
    (s.cfg.cap ≤ s.cur.toNat ∧ convDone code s = s) := by
  unfold convDone
  split
  · next h => cases ha : s.cfg.eventAtomicity <;> simp [h]
  · next h => exact .inr (.inr ⟨Nat.le_of_not_lt h, rfl⟩)

/-- A sample read delivers, faults, or (on an index no word carries) is refused (R154, R78). -/
theorem readSample_cases (i : Data16) (s : State) :
    (∃ v, i.toNat < s.cfg.cap ∧ s.buf.read i.toNat = some v ∧ readSample i s = s.emit (.readData v)) ∨
    (i.toNat < s.cfg.cap ∧ s.buf.read i.toNat = none ∧ readSample i s = s.raise .unwrittenRead i) ∨
    (s.cfg.cap ≤ i.toNat ∧ readSample i s = s.refuse .indexOutOfRange) := by
  unfold readSample
  split
  · next h => cases hm : s.buf.read i.toNat <;> simp [h]
  · next h => exact .inr (.inr ⟨Nat.le_of_not_lt h, rfl⟩)

/-- `CONV_ADVANCE` does nothing without a conversion in flight; with one it completes it by one of the two outcomes (R117). -/
theorem convAdvance_cases (s : State) :
    (s.convPend = none ∧ convAdvance s = s) ∨
    (∃ c cur, s.convPend = some c ∧
      (cur = c + 1 ∨ cur = if s.cur.toNat < s.cfg.cap then s.cur + 1 else s.cur) ∧
      convAdvance s = { s with cur := cur, convPend := none, draws := s.draws + 1 }) := by
  unfold convAdvance
  cases hp : s.convPend with
  | none => exact .inl ⟨rfl, rfl⟩
  | some c =>
    refine .inr ⟨c, _, rfl, ?_, rfl⟩
    unfold advancedCursor
    cases Config.advanceRereads s.draws <;> simp

/-- A commit faults on `IT = 0` (R135) and otherwise derives `CP` and programs the AFE (R134). -/
theorem cpCommit_cases (s : State) :
    (s.it = 0 ∧ cpCommit s = s.raise .divZero 0) ∨
    (s.it ≠ 0 ∧ cpCommit s =
      { s with cp := clearPeriod s.cfg s.it.toNat, afe := s.vl, stale := false, trace := s.trace ++ [.afeSet s.vl] }) := by
  unfold cpCommit
  split
  · next h => exact .inl ⟨h, by rw [h]⟩
  · next h => exact .inr ⟨h, rfl⟩

end Sys2Proof.Machine
end

