-- ==== Sys2Proof/Laws/PerInstr.lean ====
section
/-! SUPPORT. A statement for every operation, one lemma per constructor: the operation's row of the opcode map accepts its
word (30_encoding.md section 2 against the layouts R72 to R75). -/

namespace Sys2Proof.Laws.OwnRow

/-- The row of the opcode map with the operation's mnemonic selects the operation's word. -/
def Statement (i : Instr) : Prop :=
  ∃ row ∈ opcodeTable, row.mnemonic = i.mnemonic ∧ row.accepts i.encode = true

theorem tick : Statement .tick := by unfold Statement; decide

theorem convDone (code : Data16) : Statement (.convDone code) := by
  refine ⟨⟨.convDone, 0x01000000#32, 0xFFFF0000#32⟩, by decide, rfl, ?_⟩
  have := code.isLt
  simp only [OpcodeRow.accepts, beq_iff_eq, and_mask_high16_eq, Instr.encode, halves_toNat]
  simp; omega

theorem reset : Statement .reset := by unfold Statement; decide

theorem wrIt (v : Data16) : Statement (.wrIt v) := by
  refine ⟨⟨.wrIt, 0x40000000#32, 0xFFFF0000#32⟩, by decide, rfl, ?_⟩
  have := v.isLt
  simp only [OpcodeRow.accepts, beq_iff_eq, and_mask_high16_eq, Instr.encode, halves_toNat]
  simp; omega

theorem wrHlevel (v : Byte) : Statement (.wrHlevel v) := by
  refine ⟨⟨.wrHlevel, 0x40010000#32, 0xFFFFFF00#32⟩, by decide, rfl, ?_⟩
  have := v.isLt
  simp only [OpcodeRow.accepts, beq_iff_eq, and_mask_high24_eq, Instr.encode, halves_toNat, levelData_toNat]
  simp; omega

theorem wrVlevel (v : Byte) : Statement (.wrVlevel v) := by
  refine ⟨⟨.wrVlevel, 0x40020000#32, 0xFFFFFF00#32⟩, by decide, rfl, ?_⟩
  have := v.isLt
  simp only [OpcodeRow.accepts, beq_iff_eq, and_mask_high24_eq, Instr.encode, halves_toNat, levelData_toNat]
  simp; omega

theorem rdIt : Statement .rdIt := by unfold Statement; decide
theorem rdHlevel : Statement .rdHlevel := by unfold Statement; decide
theorem rdVlevel : Statement .rdVlevel := by unfold Statement; decide
theorem rdCp : Statement .rdCp := by unfold Statement; decide
theorem rdItc : Statement .rdItc := by unfold Statement; decide
theorem rdCpc : Statement .rdCpc := by unfold Statement; decide
theorem rdStatus : Statement .rdStatus := by unfold Statement; decide
theorem rdCur : Statement .rdCur := by unfold Statement; decide
theorem rdAfe : Statement .rdAfe := by unfold Statement; decide

theorem rdSample (i : Data16) : Statement (.rdSample i) := by
  refine ⟨⟨.rdSample, 0xC0000000#32, 0xFFFF0000#32⟩, by decide, rfl, ?_⟩
  have := i.isLt
  simp only [OpcodeRow.accepts, beq_iff_eq, and_mask_high16_eq, Instr.encode, halves_toNat]
  simp; omega

end Sys2Proof.Laws.OwnRow
end

