-- ==== Sys2Proof/Laws/Step.lean ====
section
/-! SUPPORT. What one step can do, said once, and what the agent rule of `decodeFrom` says. -/

namespace Sys2Proof

/-- An accepted word is an operation of the agent that issued it. -/
theorem decodeFrom_ok {cap : Nat} {a : Agent} {w : OpWord} {i : Instr} :
    decodeFrom cap a w = .ok i ↔ decode cap w = .ok i ∧ i.issuer = a := by
  unfold decodeFrom
  cases h : decode cap w with
  | error r => simp
  | ok j =>
    by_cases hj : j.issuer = a
    · simp only [if_pos hj, Except.ok.injEq]
      exact ⟨fun e => ⟨e, e ▸ hj⟩, And.left⟩
    · simp only [if_neg hj, Except.ok.injEq, reduceCtorEq, false_iff]
      rintro ⟨rfl, e⟩
      exact hj e

namespace Machine

/-- A step that ends with its turn. -/
theorem step_settled {s t : State} (h : fetch s = .settled t) : step s = .next t := by
  simp only [step, h]

/-- A step that runs an operation. -/
theorem step_run {s t : State} {i : Instr} (h : fetch s = .run i t) : step s = exec i t := by
  simp only [step, h]

/-- The turn of an agent, by whether the agent has a step. -/
theorem step_issue {s : State} {a : Agent} {w : OpWord} {rest : List Turn} (h : s.inputs = .issue a w :: rest) :
    (readiness a s = .ready → ∀ i, decodeFrom s.cfg.cap a w = .ok i → step s = exec i (s.setInputs rest)) ∧
    (readiness a s = .ready → ∀ r, decodeFrom s.cfg.cap a w = .error r →
      step s = .next ((s.setInputs rest).refuse r)) ∧
    (readiness a s = .halted → step s = .next (s.setInputs rest)) ∧
    (readiness a s = .awaitsAdvance → step s = .next (convAdvance s)) ∧
    (readiness a s = .awaitsCommit → step s = .next (cpCommit s)) := by
  refine ⟨fun hr i hi => ?_, fun hr r hi => ?_, fun hr => ?_, fun hr => ?_, fun hr => ?_⟩ <;>
    simp only [step, fetch, issueTurn, *]

/-- Everything a step can do: run an operation that its agent issued; refuse a word; take a micro-step; or pass with nothing
but a turn used up. In every case the agent concerned is ready for it, and the last clause says which turns are used up: a
micro-step uses up its own turn, or none where it lifts a hold or nothing is scheduled. -/
theorem step_cases {s t : State} (h : step s = .next t) :
    (∃ a w rest i, s.inputs = .issue a w :: rest ∧ readiness a s = .ready ∧ decode s.cfg.cap w = .ok i ∧
      i.issuer = a ∧ t = effect i (s.setInputs rest)) ∨
    (∃ a w rest r, s.inputs = .issue a w :: rest ∧ readiness a s = .ready ∧ decodeFrom s.cfg.cap a w = .error r ∧
      t = (s.setInputs rest).refuse r) ∨
    (∃ rest, s.fault = none ∧ s.convPend ≠ none ∧ t = convAdvance (s.setInputs rest) ∧
      (s.inputs = .advance :: rest ∨ rest = s.inputs)) ∨
    (∃ rest, s.fault = none ∧ s.convPend = none ∧ s.stale = true ∧ t = cpCommit (s.setInputs rest) ∧
      (s.inputs = .commit :: rest ∨ rest = s.inputs ∧ (s.inputs = [] ∨ ∃ w r, s.inputs = .issue .host w :: r))) ∨
    ∃ rest, t = s.setInputs rest ∧ (rest = s.inputs ∨ ∃ turn, s.inputs = turn :: rest) := by
  cases hin : s.inputs with
  | nil =>
    have e : s.setInputs [] = s := by cases s; simp_all [State.setInputs]
    have hs : step s = .next (idle s) := by simp only [step, fetch, hin]
    rw [hs] at h
    injection h with h
    subst h
    obtain ⟨hr, -⟩ | ⟨hr, -⟩ | ⟨hr, hf, hp, -⟩ | ⟨hr, hf, hp, hst, -⟩ := readiness_cases .host s <;>
      simp only [idle, hr]
    · exact .inr (.inr (.inr (.inr ⟨[], e.symm, .inl rfl⟩)))
    · exact .inr (.inr (.inr (.inr ⟨[], e.symm, .inl rfl⟩)))
    · exact .inr (.inr (.inl ⟨[], hf, hp, by rw [e], .inr rfl⟩))
    · exact .inr (.inr (.inr (.inl ⟨[], hf, hp, hst, by rw [e], .inr ⟨rfl, .inl (by trivial)⟩⟩)))
  | cons turn rest =>
    have e : s.setInputs (turn :: rest) = s := by cases s; simp_all [State.setInputs]
    cases turn with
    | issue a w =>
      obtain ⟨hready, hrefuse, hhalt, hadv, hcom⟩ := step_issue hin
      obtain ⟨hr, -⟩ | ⟨hr, -⟩ | ⟨hr, hf, hp, -⟩ | ⟨hr, hf, hp, hst, ha⟩ := readiness_cases a s
      · cases hd : decodeFrom s.cfg.cap a w with
        | ok i =>
          obtain ⟨hdec, hiss⟩ := decodeFrom_ok.mp hd
          have hr' : readiness i.issuer (s.setInputs rest) = .ready := by rw [readiness_setInputs, hiss, hr]
          rw [hready hr i hd, exec_ready hr'] at h
          injection h with h
          exact .inl ⟨a, w, rest, i, rfl, hr, hdec, hiss, h.symm⟩
        | error r =>
          rw [hrefuse hr r hd] at h
          injection h with h
          exact .inr (.inl ⟨a, w, rest, r, rfl, hr, hd, h.symm⟩)
      · rw [hhalt hr] at h
        injection h with h
        exact .inr (.inr (.inr (.inr ⟨rest, h.symm, .inr ⟨_, rfl⟩⟩)))
      · rw [hadv hr] at h
        injection h with h
        exact .inr (.inr (.inl ⟨_, hf, hp, by rw [e, h], .inr rfl⟩))
      · rw [hcom hr] at h
        injection h with h
        exact .inr (.inr (.inr (.inl ⟨_, hf, hp, hst, by rw [e, h], .inr ⟨rfl, .inr ⟨w, rest, by rw [ha]⟩⟩⟩)))
    | commit =>
      have hs : step s = .next (commitTurn rest s) := by simp only [step, fetch, hin]
      rw [hs] at h
      injection h with h
      subst h
      obtain ⟨hr, -⟩ | ⟨hr, -⟩ | ⟨hr, hf, hp, -⟩ | ⟨hr, hf, hp, hst, -⟩ := readiness_cases .host s <;>
        simp only [commitTurn, hr]
      · exact .inr (.inr (.inr (.inr ⟨rest, rfl, .inr ⟨_, rfl⟩⟩)))
      · exact .inr (.inr (.inr (.inr ⟨rest, rfl, .inr ⟨_, rfl⟩⟩)))
      · exact .inr (.inr (.inl ⟨_, hf, hp, by rw [e], .inr rfl⟩))
      · exact .inr (.inr (.inr (.inl ⟨rest, hf, hp, hst, rfl, .inl rfl⟩)))
    | advance =>
      have hs : step s = .next (advanceTurn rest s) := by simp only [step, fetch, hin]
      rw [hs] at h
      injection h with h
      subst h
      unfold advanceTurn
      cases hf : s.fault with
      | some f => exact .inr (.inr (.inr (.inr ⟨rest, by simp, .inr ⟨_, rfl⟩⟩)))
      | none =>
        cases hp : s.convPend with
        | none => exact .inr (.inr (.inr (.inr ⟨rest, by simp [convAdvance, hp], .inr ⟨_, rfl⟩⟩)))
        | some c => exact .inr (.inr (.inl ⟨rest, rfl, by simp, by simp, .inl rfl⟩))

end Machine

end Sys2Proof
end

