-- ==== Sys2Proof/Laws/Runs.lean ====
section
/-! SUPPORT. Laws of sequences: operations in a row, ticks in a row, turns in a row, cells of a still buffer in a row. -/

namespace Sys2Proof.Machine

/-- Operations in a row, cut in two. -/
theorem runOps_append {a : List Instr} {s t : State} (h : runOps a s = .next t) (b : List Instr) :
    runOps (a ++ b) s = runOps b t := by
  induction a generalizing s with
  | nil =>
    injection h with h
    exact congrArg _ h
  | cons i a ih =>
    simp only [List.cons_append, runOps] at h ⊢
    split at h
    · exact ih h
    · cases h
    · cases h

/-- One tick more. -/
theorem runTicks_succ {n : Nat} {s t : State} (h : runTicks n s = .next t) : runTicks (n + 1) s = exec .tick t := by
  unfold runTicks at h ⊢
  rw [List.replicate_succ', runOps_append h]
  simp only [runOps]
  split <;> simp_all

@[simp] theorem stepState_of_next {s t : State} (h : step s = .next t) : stepState s = t := by
  simp only [stepState, h]

@[simp] theorem drain_of_empty {s : State} (h : s.inputs = []) (n : Nat) : drain n s = s := by
  cases n <;> simp [drain, h]

/-- While turns are left, draining takes a step. -/
theorem drain_succ {s t : State} (hin : s.inputs ≠ []) (h : step s = .next t) (n : Nat) :
    drain (n + 1) s = drain n t := by
  simp only [drain, if_neg hin, stepState_of_next h]

/-- The turns of the other agents are turns of the list, none of them the host's. -/
theorem mem_othersTurns {ts : List Turn} {t : Turn} : t ∈ othersTurns ts ↔ t ∈ ts ∧ turnAgent t ≠ .host := by
  simp [othersTurns]

/-- No operation reads or writes the schedule. -/
theorem effect_setInputs (i : Instr) (s : State) (ts : List Turn) : effect i (s.setInputs ts) = (effect i s).setInputs ts := by
  cases i with
  | tick =>
    simp only [effect, tick, clearAssertTest_eq, shiftRollover_eq, clearCycleEnd_eq, countTick]
    rfl
  | convDone c =>
    simp only [effect]
    unfold convDone
    by_cases h : s.cur.toNat < s.cfg.cap
    · rw [if_pos h, if_pos (show (s.setInputs ts).cur.toNat < (s.setInputs ts).cfg.cap from h), State.setInputs_cfg]
      cases s.cfg.eventAtomicity <;> rfl
    · rw [if_neg h, if_neg (show ¬(s.setInputs ts).cur.toNat < (s.setInputs ts).cfg.cap from h)]
  | rdSample j =>
    simp only [effect]
    unfold readSample
    by_cases h : j.toNat < s.cfg.cap
    · rw [if_pos h, if_pos (show j.toNat < (s.setInputs ts).cfg.cap from h), State.setInputs_buf]
      cases s.buf.read j.toNat <;> rfl
    · rw [if_neg h, if_neg (show ¬j.toNat < (s.setInputs ts).cfg.cap from h)]
      rfl
  | _ => rfl

/-- A turn of an agent that has a step, taken by itself, is its operation's effect. -/
theorem takeTurns_ready {s : State} {a : Agent} {w : OpWord} {i : Instr} (hr : readiness a s = .ready)
    (hd : decodeFrom s.cfg.cap a w = .ok i) : takeTurns [.issue a w] s = effect i s := by
  have hi := (decodeFrom_ok.mp hd).2
  have hs := (step_issue (s := s.setInputs [.issue a w]) rfl).1 (readiness_setInputs a _ s ▸ hr) i hd
  rw [exec_ready (by rw [hi]; exact hr)] at hs
  have he := effect_setInputs i s
  have hd3 : drain 3 (s.setInputs [.issue a w]) = effect i ((s.setInputs [.issue a w]).setInputs []) := by
    rw [drain_succ (by simp) hs]
    exact drain_of_empty (congrArg State.inputs (he [])) 2
  show (drain 3 _).setInputs s.inputs = _
  rw [hd3]
  exact (congrArg (·.setInputs s.inputs) (he [])).trans ((he s.inputs).symm)

/-- The samples at written cells. -/
theorem readCells_ok {m : Memory} {is : List Nat} {cells : Nat → Data16} (h : ∀ i ∈ is, m.read i = some (cells i)) :
    readCells m is = .ok (is.map cells) := by
  induction is with
  | nil => rfl
  | cons i is ih =>
    simp only [readCells, h i (List.mem_cons_self), ih fun j hj => h j (List.mem_cons_of_mem _ hj), List.map_cons]

/-- The first unwritten cell is the fault. -/
theorem readCells_error {m : Memory} {pre : List Nat} {i : Nat} {cells : Nat → Data16}
    (h : ∀ j ∈ pre, m.read j = some (cells j)) (hi : m.read i = none) (rest : List Nat) :
    readCells m (pre ++ i :: rest) = .error ⟨.unwrittenRead, BitVec.ofNat 16 i⟩ := by
  induction pre with
  | nil => simp only [List.nil_append, readCells, hi]
  | cons j pre ih =>
    simp only [List.cons_append, readCells, h j (List.mem_cons_self), ih fun k hk => h k (List.mem_cons_of_mem _ hk)]

end Sys2Proof.Machine
end

