-- ==== Sys2Proof/Machine/Assembler.lean ====
section
/-! DEFINITION. The assembly notation and the pseudo-operations (30_encoding.md R82, R83): a line of text to the turns it
stands for. What R82 does not fix (white space, letter case, the error reasons) is log 25. -/

namespace Sys2Proof.Machine

/-- Why a line is not assembled. -/
inductive AsmError where
  | unknownMnemonic
  /-- The number of operands is not the operation's. -/
  | operandCount
  /-- An operand is not `#n` or `#0x...`. -/
  | badOperand
  /-- An operand does not fit its field (R82). -/
  | operandTooWide
  /-- `TICKS #0`: R83 asks for n >= 1. -/
  | zeroCount
  deriving DecidableEq, Repr

/-- The mnemonic's spelling in the opcode map. -/
def mnemonicText : Mnemonic → String
  | .tick => "TICK"
  | .convDone => "CONV_DONE"
  | .reset => "RESET"
  | .wrIt => "WR_IT"
  | .wrHlevel => "WR_HLEVEL"
  | .wrVlevel => "WR_VLEVEL"
  | .rdIt => "RD_IT"
  | .rdHlevel => "RD_HLEVEL"
  | .rdVlevel => "RD_VLEVEL"
  | .rdCp => "RD_CP"
  | .rdItc => "RD_ITC"
  | .rdCpc => "RD_CPC"
  | .rdStatus => "RD_STATUS"
  | .rdCur => "RD_CUR"
  | .rdAfe => "RD_AFE"
  | .rdSample => "RD_SAMPLE"

/-- The line without its comment: `;` starts one (R82). -/
def stripComment (line : List Char) : List Char := line.takeWhile (· ≠ ';')

/-- The pieces of a line, separated by blanks and commas; `acc` is the piece being read, reversed. A `:` ends an agent
prefix and belongs to it. -/
def pieces (acc : List Char) : List Char → List (List Char)
  | [] => if acc.isEmpty then [] else [acc.reverse]
  | c :: rest =>
    if c = ' ' ∨ c = '\t' ∨ c = ',' then
      if acc.isEmpty then pieces [] rest else acc.reverse :: pieces [] rest
    else if c = ':' then (c :: acc).reverse :: pieces [] rest
    else pieces (c :: acc) rest

/-- The value of one digit. -/
def digitValue (c : Char) : Option Nat :=
  let n := c.toNat
  if 48 ≤ n ∧ n ≤ 57 then some (n - 48)
  else if 97 ≤ n ∧ n ≤ 102 then some (n - 87)
  else if 65 ≤ n ∧ n ≤ 70 then some (n - 55)
  else none

/-- The digits read in a base, the value so far in `acc`. -/
def digitsValue (base acc : Nat) : List Char → Option Nat
  | [] => some acc
  | c :: rest =>
    match digitValue c with
    | some d => if d < base then digitsValue base (base * acc + d) rest else none
    | none => none

/-- An operand, `#n` in decimal or `#0x...` in hexadecimal (R82). -/
def operandValue : List Char → Option Nat
  | '#' :: '0' :: 'x' :: d :: ds => digitsValue 16 0 (d :: ds)
  | '#' :: d :: ds => digitsValue 10 0 (d :: ds)
  | _ => none

/-- An operand for a field of `bits` bits. -/
def operandFits (bits : Nat) (n : Nat) : Except AsmError (BitVec bits) :=
  if n < 2 ^ bits then .ok (BitVec.ofNat bits n) else .error .operandTooWide

/-- The agent a prefix names (R82). -/
def agentPrefix (p : List Char) : Option Agent :=
  if p = "tick:".toList then some .tickSource
  else if p = "adc:".toList then some .converter
  else if p = "host:".toList then some .host
  else if p = "rst:".toList then some .resetSource
  else none

/-- The mnemonic a piece spells, of the opcode map. -/
def mnemonicOf (p : List Char) : Option Mnemonic :=
  (opcodeTable.map OpcodeRow.mnemonic).find? fun m => (mnemonicText m).toList = p

/-- The operation of a mnemonic and its operands (R82). -/
def assembleInstr (m : Mnemonic) (ops : List Nat) : Except AsmError Instr :=
  match m, ops with
  | .tick, [] => .ok .tick
  | .convDone, [n] => (operandFits 16 n).map .convDone
  | .reset, [] => .ok .reset
  | .wrIt, [n] => (operandFits 16 n).map .wrIt
  | .wrHlevel, [n] => (operandFits 8 n).map .wrHlevel
  | .wrVlevel, [n] => (operandFits 8 n).map .wrVlevel
  | .rdIt, [] => .ok .rdIt
  | .rdHlevel, [] => .ok .rdHlevel
  | .rdVlevel, [] => .ok .rdVlevel
  | .rdCp, [] => .ok .rdCp
  | .rdItc, [] => .ok .rdItc
  | .rdCpc, [] => .ok .rdCpc
  | .rdStatus, [] => .ok .rdStatus
  | .rdCur, [] => .ok .rdCur
  | .rdAfe, [] => .ok .rdAfe
  | .rdSample, [n] => (operandFits 16 n).map .rdSample
  | _, _ => .error .operandCount

/-- The turn that issues an operation: by the agent of the line's prefix, else by the one R81 allows (R82). -/
def issueOf (a : Option Agent) (i : Instr) : Turn := .issue (a.getD i.issuer) i.encode

/-- `SETCFG #it, #h, #v` (R83): the commit micro-step stands after the write of `IT`. -/
def setcfgTurns (a : Option Agent) (it : Data16) (h v : Byte) : List Turn :=
  [issueOf a (.wrIt it), .commit, issueOf a (.wrHlevel h), issueOf a (.wrVlevel v)]

/-- The turns of all operands, each through `f`. -/
def eachOperand (f : Nat → Except AsmError Turn) : List Nat → Except AsmError (List Turn)
  | [] => .ok []
  | n :: ns =>
    match f n, eachOperand f ns with
    | .ok t, .ok ts => .ok (t :: ts)
    | .error e, _ => .error e
    | _, .error e => .error e

/-- The pseudo-operations of R83, by name. R83 bounds the count of `TICKS` only: `READBUF #i, #0` is DESIGN CHOICE no
operation and no error (log 25, safe). -/
def assemblePseudo (a : Option Agent) (name : List Char) (ops : List Nat) : Except AsmError (List Turn) :=
  if name = "TICKS".toList then
    match ops with
    | [n] => if n = 0 then .error .zeroCount else .ok (List.replicate n (issueOf a .tick))
    | _ => .error .operandCount
  else if name = "CONVS".toList then
    if ops.isEmpty then .error .operandCount
    else eachOperand (fun n => (operandFits 16 n).map fun code => issueOf a (.convDone code)) ops
  else if name = "SETCFG".toList then
    match ops with
    | [it, h, v] =>
      match operandFits 16 it, operandFits 8 h, operandFits 8 v with
      | .ok it, .ok h, .ok v => .ok (setcfgTurns a it h v)
      | _, _, _ => .error .operandTooWide
    | _ => .error .operandCount
  else if name = "READBUF".toList then
    match ops with
    | [i, n] =>
      eachOperand (fun j => (operandFits 16 j).map fun idx => issueOf a (.rdSample idx)) ((List.range n).map (i + ·))
    | _ => .error .operandCount
  else .error .unknownMnemonic

/-- The operands of a line. -/
def operandValues : List (List Char) → Option (List Nat)
  | [] => some []
  | p :: ps =>
    match operandValue p, operandValues ps with
    | some n, some ns => some (n :: ns)
    | _, _ => none

/-- A line's operation after its prefix. A prefix with no operation after it, which R82 does not speak of, is DESIGN CHOICE no
turn and no error (log 25, safe). -/
def assembleOperation (a : Option Agent) : List (List Char) → Except AsmError (List Turn)
  | [] => .ok []
  | name :: ps =>
    match operandValues ps with
    | none => .error .badOperand
    | some ops =>
      match mnemonicOf name with
      | some m => (assembleInstr m ops).map fun i => [issueOf a i]
      | none => assemblePseudo a name ops

/-- The turns of one line (R82, R83); an empty line or a comment has none. -/
def assembleLine (line : String) : Except AsmError (List Turn) :=
  match pieces [] (stripComment line.toList) with
  | [] => .ok []
  | p :: ps =>
    match agentPrefix p with
    | some a => assembleOperation (some a) ps
    | none => assembleOperation none (p :: ps)

end Sys2Proof.Machine
end

