-- ==== Sys2Proof/Machine/Signals.lean ====
section
/-! DEFINITION. Derived signals and quantities that no step reads: the level of the clear line (10_state.md R37), the
level of a shift pulse (R36), and the times of 70_reset_and_hazards.md R230. -/

namespace Sys2Proof.Machine

/-- The electrical level of an asserted or inactive output, where its polarity is given (true = high). -/
def pinLevel (p : Option Polarity) (asserted : Bool) : Option Bool :=
  p.map fun
    | .activeHigh => asserted
    | .activeLow => !asserted

/-- The integration-clear line follows `CLR` (R37); its level is known only where `CLR_POLARITY` is (91 N6). -/
def clearLineLevel (s : State) : Option Bool := pinLevel s.cfg.clrPolarity s.clr

/-- The level of the shift line during a pulse (R36). -/
def shiftPulseLevel (c : Config) : Option Bool := pinLevel c.shPolarity true

/-- A shift period of `IT` ticks, in microseconds (R230). -/
def shiftPeriodMicros (s : State) : Nat := s.it.toNat * s.cfg.tickPeriodMicros

/-- A clear cycle in ticks: `CP * IT` (R99, R230). -/
def clearCycleTicks (s : State) : Nat := s.cp.toNat * s.it.toNat

/-- A clear cycle in microseconds (R230). -/
def clearCycleMicros (s : State) : Nat := clearCycleTicks s * s.cfg.tickPeriodMicros

end Sys2Proof.Machine
end

