-- ==== Sys2Proof/Tests/Slice0.lean ====
section
/-! SUPPORT. The model's own tests, one step each, with the results of spec/95_test_vectors.md (its row numbers stand in the
comments) or of the rules named; and for each statement with hypotheses a state and operands that meet them all. -/

namespace Sys2Proof.Tests

open Sys2Proof Sys2Proof.Machine

/-! ### Small states -/

/-- Parameter set S of spec/95: `CAP` 4, `CONST_MIN_PERIOD` 30, `TICK_UNIT` 10. -/
def smallConfig : Config :=
  { Config.simulatorDefault with cap := 4, capPos := by decide, capLe := by decide, constMinPeriod := 30 }

/-- Power-on under S. -/
def small : State := State.resetFor smallConfig

/-- Power-on under S with split conversions. -/
def split : State := State.resetFor { smallConfig with eventAtomicity := .interleaved }

/-- A state of the tick vectors: `IT/CP/ITC/CPC/CLR`, and `CUR` 7, under the spec's default parameters. -/
def before (it cp : Data16) (itc cpc : Nat) (clr : Bool) : State :=
  { State.reset with it := it, cp := cp, itc := itc, cpc := cpc, clr := clr, cur := 7 }

/-- The same in another compare mode and phase. -/
def inMode (m : CompareMode) (p : ClearAssertPhase) (s : State) : State :=
  { s with cfg := { s.cfg with compareMode := m, clearAssertPhase := p } }

/-- What an operation leaves, seen through `f`. -/
def after {α : Type} (f : State → α) (i : Instr) (s : State) : Option α :=
  match exec i s with
  | .next t => some (f t)
  | .fault _ => none
  | .refused _ => none

/-- What one step leaves, seen through `f`. -/
def stepped {α : Type} (f : State → α) (s : State) : Option α :=
  match step s with
  | .next t => some (f t)
  | .fault _ => none
  | .refused _ => none

/-- What a tick vector lists. -/
structure Timing where
  itc : Nat
  cpc : Nat
  clr : Bool
  cur : Data16
  outputs : List Output
  deriving DecidableEq, Repr

/-- A state's entry in a tick vector. -/
def timing (s : State) : Timing := ⟨s.itc, s.cpc, s.clr, s.cur, s.trace⟩

/-- The operation a word decodes to under `CAP` 4. -/
def decoded (w : OpWord) : Option Instr :=
  match decode 4 w with
  | .ok i => some i
  | .error _ => none

/-- The reason an agent's word is refused under `CAP` 4. -/
def refusal (a : Agent) (w : OpWord) : Option RefuseReason :=
  match decodeFrom 4 a w with
  | .ok _ => none
  | .error r => some r

/-! ### Decoding: spec/95 section 2.1, the words written out from R72 to R75 -/

/-- E1, E7, E8, E10. -/
theorem test_decode_events :
    decoded 0b00000000000000000000000000000000 = some .tick ∧
    decoded 0b00000001000000001111111111111111 = some (.convDone 0xFFFF) ∧
    decoded 0b00000001000000000000000000000000 = some (.convDone 0) ∧
    decoded 0b00000010000000000000000000000000 = some .reset := by decide

/-- E12, E15, E17. -/
theorem test_decode_writes :
    decoded 0b01000000000000001111111111111111 = some (.wrIt 0xFFFF) ∧
    decoded 0b01000000000000010000000011111111 = some (.wrHlevel 0xFF) ∧
    decoded 0b01000000000000100000000000000011 = some (.wrVlevel 3) := by decide

/-- E22, E24 and the other rows of the register map R40. -/
theorem test_decode_reads :
    decoded 0b10000000000000000000000000000000 = some .rdIt ∧ decoded 0b10000000000000010000000000000000 = some .rdHlevel ∧
    decoded 0b10000000000000100000000000000000 = some .rdVlevel ∧ decoded 0b10000000000000110000000000000000 = some .rdCp ∧
    decoded 0b10000000000001000000000000000000 = some .rdItc ∧ decoded 0b10000000000001010000000000000000 = some .rdCpc ∧
    decoded 0b10000000000001100000000000000000 = some .rdStatus ∧ decoded 0b10000000000001110000000000000000 = some .rdCur ∧
    decoded 0b10000000000010000000000000000000 = some .rdAfe := by decide

/-- E27. -/
theorem test_decode_sample : decoded 0b11000000000000000000000000000011 = some (.rdSample 3) := by decide

/-- E2 to E6, E9, E11, E14, E16. -/
theorem test_decode_reserved_low :
    [0x00000001#32, 0x00010000#32, 0x00FF0000#32, 0x03000000#32, 0x3F000000#32, 0x01010000#32, 0x02000001#32,
      0x50000000#32, 0x40010100#32].all (fun w => refusal (classIssuer w) w = some .reservedEncoding) = true := by decide

/-- E20, E21, E23, E25, E26, E30 to E33. -/
theorem test_decode_reserved_high :
    [0x40090000#32, 0x4FFF0000#32, 0x80000001#32, 0x80090000#32, 0x90000000#32, 0xC0010000#32, 0xFFFFFFFF#32,
      0x7FFFFFFF#32, 0xBFFFFFFF#32].all (fun w => refusal .host w = some .reservedEncoding) = true := by decide

/-- E18, E19, E28, E29, E34, E35, E36. -/
theorem test_decode_refused :
    refusal .host 0x40030005 = some .writeReadOnly ∧ refusal .host 0x40080000 = some .writeReadOnly ∧
    refusal .host 0xC0000004 = some .indexOutOfRange ∧ refusal .host 0xC000FFFF = some .indexOutOfRange ∧
    refusal .host 0x00000000 = some .wrongAgent ∧ refusal .tickSource 0x80000000 = some .wrongAgent ∧
    refusal .host 0x01000123 = some .wrongAgent := by decide

/-- The one check of `wellFormed`: the last cell's read is an operation, the read one past it is refused (R75, R78). -/
theorem test_wellFormed_refuses_index :
    (Instr.rdSample 3).wellFormed 4 = true ∧ (Instr.rdSample 4).wellFormed 4 = false := by decide

/-- Unused high bits of a query, and a bit above the word, are no instruction. -/
theorem test_decodeTableWord :
    decodeTableWord 32 0x400100FF = some (.wrHlevel 0xFF) ∧ decodeTableWord 32 0x80090000 = none ∧
    decodeTableWord 32 (2 ^ 32) = none := by decide

/-! ### TICK: spec/95 section 2.2 -/

/-- T1 to T7, T10, T12, T18: `GE`, `PRE_INCREMENT`. -/
theorem test_tick_ge_pre :
    [before 1 1848 0 0 false, before 10 185 8 3 true, before 10 185 9 3 true, before 10 185 9 184 true,
      before 10 185 0 0 false, before 10 185 0 5 true, before 3 616 7 5 true, before 10 2 3 5 true,
      before 0 185 0 5 true, before 10 185 9 184 false].map (after timing .tick) =
    [some ⟨0, 1, true, 0, [.clrAssert, .cursorReset, .shFire]⟩, some ⟨9, 3, true, 7, []⟩, some ⟨0, 4, true, 7, [.shFire]⟩,
      some ⟨0, 0, false, 7, [.shFire, .clrDeassert]⟩, some ⟨1, 0, true, 0, [.clrAssert, .cursorReset]⟩,
      some ⟨1, 5, true, 7, []⟩, some ⟨0, 6, true, 7, [.shFire]⟩, some ⟨4, 0, false, 7, [.clrDeassert]⟩,
      some ⟨0, 6, true, 7, [.shFire]⟩, some ⟨0, 0, false, 7, [.shFire, .clrDeassert]⟩] := by decide

/-- T8, T9, T11, T13, T17 (`EQ`), then T14, T15 (`POST_ROLLOVER`). -/
theorem test_tick_eq_post :
    [before 3 616 7 5 true, before 3 616 65535 5 true, before 10 2 3 5 true, before 0 185 4 5 true,
      before 10 185 9 65535 true].map (fun s => after timing .tick (inMode .eq .preIncrement s)) =
    [some ⟨8, 5, true, 7, []⟩, some ⟨0, 5, true, 7, []⟩, some ⟨4, 5, true, 7, []⟩, some ⟨5, 5, true, 7, []⟩,
      some ⟨0, 0, true, 7, [.shFire]⟩] ∧
    [before 1 1848 0 0 false, before 4 1 3 0 false].map (fun s => after timing .tick (inMode .ge .postRollover s)) =
    [some ⟨0, 1, true, 0, [.shFire, .clrAssert, .cursorReset]⟩,
      some ⟨0, 0, false, 0, [.shFire, .clrAssert, .cursorReset, .clrDeassert]⟩] := by decide

/-- `EQ` with `CPC = CP`: a tick that is no rollover ends the cycle (R98, R95); in one that is, R90's step 3 counts `CPC` first,
and it does not end (log 27). -/
theorem test_tick_commit_corner :
    [before 10 5 3 5 true, before 10 5 9 5 true].map (fun s => after timing .tick (inMode .eq .preIncrement s)) =
    [some ⟨4, 0, false, 7, [.clrDeassert]⟩, some ⟨0, 6, true, 7, [.shFire]⟩] := by decide

/-! ### CONV_DONE: spec/95 section 2.3 -/

/-- CD1 to CD4. -/
theorem test_convDone_atomic :
    after (fun t => (t.buf, t.cur, t.trace)) (.convDone 0x0ABC) small = some ([(0, 0x0ABC)], 1, []) ∧
    after (fun t => (t.buf, t.cur)) (.convDone 0x0123) { small with cur := 3 } = some ([(3, 0x0123)], 4) ∧
    after id (.convDone 0x0555) { small with cur := 4 } = some { small with cur := 4 } ∧
    after (fun t => (t.buf, t.cur)) (.convDone 0xFFFF) { small with cur := 1, buf := [(0, 5), (3, 9)] } =
      some ([(0, 5), (1, 0xFFFF), (3, 9)], 2) := by decide

/-- CD6, CD7 (`INTERLEAVED`), and CD9's held host. -/
theorem test_convDone_interleaved :
    after (fun t => (t.buf, t.cur, t.convPend)) (.convDone 0x0077) { split with cur := 2 } =
      some ([(2, 0x0077)], 2, some 2) ∧
    after id (.convDone 0x0077) { split with cur := 4 } = some { split with cur := 4 } ∧
    after State.trace .rdCur { split with convPend := some 2 } = some [] := by decide

/-- CD8: whichever value the open outcome has, the cursor after the second half is 3 or 1. -/
theorem test_convAdvance_outcomes :
    (advancedCursor false 2 { split with cur := 0 }, advancedCursor true 2 { split with cur := 0 }) = (3, 1) := by decide

/-! ### Configuration: spec/95 section 2.4 -/

/-- F1: the clear-period function. -/
theorem test_clearPeriod :
    [1, 2, 3, 5, 7, 10, 18, 100, 184, 185, 1000, 1846, 1847, 1848, 65535].map (clearPeriod Config.simulatorDefault) =
      [1848, 924, 616, 370, 264, 185, 103, 19, 11, 10, 2, 2, 2, 1, 1] := by decide

/-- F2, F3: the write, then the commit. -/
theorem test_wrIt_commit :
    after (fun t => (t.it, t.stale, t.cp, t.trace)) (.wrIt 10) State.reset = some (10, true, 1848, []) ∧
    stepped (fun t => (t.cp, t.afe, t.stale, t.trace)) { State.reset with it := 10, stale := true } =
      some (185, 0, false, [.afeSet 0]) := by decide

/-- F4, F11: a commit of 0 faults and writes nothing else; the host is held while the commit is pending. -/
theorem test_commit_zero_held :
    stepped (fun t => (t.fault, t.cp, t.stale, t.trace)) { State.reset with it := 0, stale := true } =
      some (some ⟨.divZero, 0⟩, 1848, true, []) ∧
    after State.trace .rdIt { State.reset with it := 10, stale := true } = some [] := by decide

/-- F7. -/
theorem test_wrHlevel : after (fun t => (t.hl, t.stale, t.trace)) (.wrHlevel 255) State.reset = some (255, false, []) := by
  decide

/-- F9, F10. -/
theorem test_wrVlevel :
    after (fun t => (t.vl, t.afe, t.trace)) (.wrVlevel 2) State.reset = some (2, 0, []) ∧
    stepped (fun t => (t.afe, t.cp, t.trace)) { State.reset with vl := 2, stale := true } =
      some (2, 1848, [.afeSet 2]) := by decide

/-! ### Reads: spec/95 section 2.5 -/

/-- RD1, RD2, RD3, RD6. -/
theorem test_reads_after_reset :
    after State.trace .rdIt State.reset = some [.readData 1] ∧ after State.trace .rdCp State.reset = some [.readData 1848] ∧
    after State.trace .rdHlevel State.reset = some [.readData 0] ∧
    after State.trace .rdStatus State.reset = some [.readData 0] := by decide

/-- RD4, RD5, RD7, RD8, RD9, and the zero extension of R146, R147. -/
theorem test_reads_later :
    after State.trace .rdItc { State.reset with itc := 3 } = some [.readData 3] ∧
    after State.trace .rdCpc { State.reset with cpc := 1 } = some [.readData 1] ∧
    after State.trace .rdStatus { State.reset with clr := true } = some [.readData 1] ∧
    after State.trace .rdCur { small with cur := 4 } = some [.readData 4] ∧
    after State.trace .rdAfe { State.reset with afe := 2 } = some [.readData 2] ∧
    after State.trace .rdHlevel { State.reset with hl := 0xFF } = some [.readData 0x00FF] ∧
    after State.trace .rdVlevel { State.reset with vl := 0x80 } = some [.readData 0x0080] := by decide

/-- RD10, RD11. -/
theorem test_rdSample :
    after State.trace (.rdSample 0) { small with buf := [(0, 0x0FC0)] } = some [.readData 0x0FC0] ∧
    after (fun t => (t.fault, t.trace)) (.rdSample 0) small = some (some ⟨.unwrittenRead, 0⟩, []) := by decide

/-! ### RESET, faults, refusals: spec/95 section 2.7 -/

/-- A faulted state in the middle of things, with a mark. -/
def faulted : State :=
  { small with it := 0, hl := 9, itc := 3, cur := 2, buf := [(0, 1)], stale := true, fault := some ⟨.divZero, 0⟩
               refusals := [.wrongAgent] }

/-- X1, X3. -/
theorem test_reset : after id .reset faulted = some { small with refusals := [.wrongAgent] } := by decide

/-- X2: nothing but `RESET` has a step. -/
theorem test_fault_holds :
    ∀ i ∈ [Instr.tick, .convDone 1, .wrIt 5, .wrHlevel 1, .rdIt, .rdSample 0], after id i faulted = some faulted := by decide

/-- X4 and RD12: the mark is all that changes. -/
theorem test_refused_word :
    stepped id { small with inputs := [.issue .converter 0x00000000] } = some { small with refusals := [.wrongAgent] } ∧
    stepped id { small with inputs := [.issue .host 0xC0000004] } =
      some { small with refusals := [.indexOutOfRange] } := by decide

/-- The word placed in front runs, at its agent's turn, as the first step after reset. -/
theorem test_withFetchWord :
    stepped timing (State.reset.withFetchWord 32 0x00000000) =
      some ⟨0, 1, true, 0, [.clrAssert, .cursorReset, .shFire]⟩ ∧
    stepped State.trace (State.reset.withFetchWord 32 0x80030000) = some [.readData 1848] := by decide

/-! ### Host boundary: spec/95 section 2.6 -/

/-- The buffer of the frame vectors. -/
def frameBuffer : Memory := [(0, 0x0FC0), (1, 0x03FF), (2, 0x0ABC), (3, 0x0123)]

/-- The packing table, three of its rows. -/
theorem test_packing :
    [0, 1, 2, 3].map (fun v => packSample v 0x03FF) =
      [some [0x0F], some [0x3F], some [0x00, 0xFF], some [0x03, 0xFF]] ∧
    [0, 1, 2, 3].map (fun v => packSample v 0x0ABC) =
      [some [0x2A], some [0xAB], some [0x02, 0xAF], some [0x0A, 0xBC]] ∧
    [0, 1, 2, 3].map (fun v => packSample v 0xFFFF) =
      [some [0xFF], some [0xFF], some [0x3F, 0xFF], some [0xFF, 0xFF]] := by decide

/-- H1 to H6, and a frame over an unwritten cell (R170). -/
theorem test_frames :
    encodeFrame 4 frameBuffer 0 0 = .frame [0x3F, 0x0F, 0x2A, 0x04] ∧
    encodeFrame 4 frameBuffer 1 2 = .frame [0x03, 0xF0, 0x02, 0xAF] ∧
    encodeFrame 4 frameBuffer 2 3 = .frame [0x0F, 0xC0] ∧ encodeFrame 4 frameBuffer 3 1 = .frame [] ∧
    encodeFrame 4 frameBuffer 0 4 = .refused .levelUndefined ∧ encodeFrame 4 frameBuffer 32 0 = .refused .levelUndefined ∧
    encodeFrame 4 [(0, 1)] 1 0 = .faulted ⟨.unwrittenRead, 2⟩ := by decide

/-- H7 to H10. -/
theorem test_decodeSet :
    decodeSet 0x01 0x00 0x02 0x01 = ⟨256, 2, 1⟩ ∧ decodeSet 0 0 0 0 = ⟨0, 0, 0⟩ ∧
    decodeSet 0xFF 0xFF 0x05 0x03 = ⟨65535, 5, 3⟩ ∧ decodeSet 0x00 0x0A 0x07 0x09 = ⟨10, 7, 9⟩ := by decide

/-- A refused encode sets the mark and nothing else (R171, R188). -/
theorem test_noteEncode :
    noteEncode (encodeFrame 4 frameBuffer 0 4) small = { small with refusals := [.levelUndefined] } ∧
    noteEncode (encodeFrame 4 frameBuffer 0 0) small = small := by decide

/-- R186: the code numbers. -/
theorem test_fault_numbers : FaultCode.divZero.number = 0x01 ∧ FaultCode.unwrittenRead.number = 0x02 := by decide

/-- A block at `HL` 1, `VL` 3: its frame consumes the cells 0 and 2. -/
def streaming : State := { small with hl := 1, vl := 3, cur := 4, buf := frameBuffer }

/-- R67, R168: a cursor reset and three conversions between the two sample reads give a frame of an old and a new sample, while
the still buffer has another; a host turn among the others is not taken (R165). -/
theorem test_live_encode :
    (liveEncode true [[], [], [], [.issue .tickSource 0x00000000, .issue .host 0x40020000, .issue .converter 0x01000111,
      .issue .converter 0x01000222, .issue .converter 0x01000333]] streaming).2 = .frame [0x0F, 0xC0, 0x03, 0x33] ∧
    encodeFrame 4 frameBuffer 1 3 = .frame [0x0F, 0xC0, 0x0A, 0xBC] := by decide

/-- R171, R170: at undefined levels only the levels are read and the mark is set (H5); an unwritten cell faults the block. -/
theorem test_live_encode_ends :
    (let r := liveEncode false [] { streaming with vl := 4 }
     r.2 = .refused .levelUndefined ∧ r.1.refusals = [.levelUndefined] ∧ r.1.trace = [.readData 1, .readData 4]) ∧
    (let r := liveEncode false [] { streaming with buf := [(0, 1)] }
     r.2 = .faulted ⟨.unwrittenRead, 2⟩ ∧ r.1.fault = some ⟨.unwrittenRead, 2⟩) := by decide

/-- R230: the clear cycle at reset lasts 1848 ticks, 18.48 ms. -/
theorem test_clear_cycle_time :
    clearCycleTicks State.reset = 1848 ∧ clearCycleMicros State.reset = 18480 ∧ shiftPeriodMicros State.reset = 10 := by
  decide

/-- R37: the line's level follows `CLR` where a polarity is given. -/
theorem test_clear_line_level :
    clearLineLevel small = none ∧
    clearLineLevel { small with clr := true, cfg := { smallConfig with clrPolarity := some .activeLow } } = some false ∧
    shiftPulseLevel { smallConfig with shPolarity := some .activeHigh } = some true := by decide

/-! ### Assembler: the lines of spec/95 section 3 -/

/-- A line's turns, or its error. -/
def assembled (line : String) : Option (List Turn) :=
  match assembleLine line with
  | .ok ts => some ts
  | .error _ => none

/-- P1 line 2, P1 line 6, P1 line 1. -/
theorem test_assemble_words :
    assembled "host: WR_VLEVEL #3" = some [.issue .host 0x40020003] ∧
    assembled "adc: CONV_DONE #0x0100 ; stored" = some [.issue .converter 0x01000100] ∧
    assembled "rst: RESET" = some [.issue .resetSource 0x02000000] := by decide

/-- R83's pseudo-operations, and P3 line 1: an operand too wide is not assembled (R82). -/
theorem test_assemble_pseudo :
    assembled "tick: TICKS #3" = some (List.replicate 3 (.issue .tickSource 0x00000000)) ∧
    assembled "adc: CONVS #0x0FC0, #0x03FF" = some [.issue .converter 0x01000FC0, .issue .converter 0x010003FF] ∧
    assembled "SETCFG #10, #1, #2" =
      some [.issue .host 0x4000000A, .commit, .issue .host 0x40010001, .issue .host 0x40020002] ∧
    assembled "READBUF #1, #2" = some [.issue .host 0xC0000001, .issue .host 0xC0000002] ∧
    assembled "WR_HLEVEL #0x100" = none := by decide

/-- The model's choices of log 25: a count of 0, and a prefix with no operation, are no turn. -/
theorem test_assemble_empty : assembled "READBUF #1, #0" = some [] ∧ assembled "tick:" = some [] := by decide

/-! ### Witnesses: for each statement with hypotheses, a state and operands that meet them all together, clause by clause
where it has several -/

/-- DecodeOfEncode, at the last cell's index. -/
theorem witness_DecodeOfEncode : (Instr.rdSample 3).wellFormed 4 = true := by decide

/-- EncodeOfDecode, AgentsIssueOnlyTheirClass, the first half of DecoderAgreesWithOpcodeMap. -/
theorem witness_EncodeOfDecode : decode 4 0xC0000003 = .ok (.rdSample 3) := rfl

/-- DecoderAgreesWithOpcodeMap, the second half: the sample-read row accepts the first index at capacity and the last below
it, another row its word. -/
theorem witness_DecoderAgreesWithOpcodeMap :
    (⟨.rdSample, 0xC0000000, 0xFFFF0000⟩ : OpcodeRow) ∈ opcodeTable ∧
    (⟨.rdSample, 0xC0000000, 0xFFFF0000⟩ : OpcodeRow).accepts 0xC0000004 = true ∧
    (⟨.rdSample, 0xC0000000, 0xFFFF0000⟩ : OpcodeRow).accepts 0xC0000003 = true ∧
    (⟨.wrHlevel, 0x40010000, 0xFFFFFF00⟩ : OpcodeRow) ∈ opcodeTable ∧
    (⟨.wrHlevel, 0x40010000, 0xFFFFFF00⟩ : OpcodeRow).accepts 0x400100FF = true := by decide

/-- ReservedBitsRefuse, one word for each of its six cases, a single reserved bit set in each. -/
theorem witness_ReservedBitsRefuse :
    ((0x02000001#32).toNat / 2 ^ 16 = 0x0200 ∧ (0x02000001#32).toNat % 2 ^ 16 ≠ 0) ∧
    ((0x00010000#32).toNat / 2 ^ 30 = 0 ∧ (0x00010000#32).toNat / 2 ^ 16 % 2 ^ 8 ≠ 0) ∧
    ((0x90000000#32).toNat / 2 ^ 30 = 2 ∧ (0x90000000#32).toNat / 2 ^ 28 % 2 ^ 2 ≠ 0) ∧
    ((0x80008000#32).toNat / 2 ^ 30 = 2 ∧ (0x80008000#32).toNat % 2 ^ 16 ≠ 0) ∧
    ((0x40020100#32).toNat / 2 ^ 16 = 0x4002 ∧ (0x40020100#32).toNat / 2 ^ 8 % 2 ^ 8 ≠ 0) ∧
    ((0xE0000000#32).toNat / 2 ^ 30 = 3 ∧ (0xE0000000#32).toNat / 2 ^ 16 % 2 ^ 14 ≠ 0) := by decide

/-- UnmatchedWordsRefused, its first clause at both ends of the read-only range and just past it; its second at `IDX = CAP`. -/
theorem witness_UnmatchedWordsRefused :
    [0x40030000#32, 0x40080000#32, 0x40090000#32].all (fun w => opcodeTable.all fun row => row.accepts w == false) = true ∧
    (0xC0000004#32).toNat / 2 ^ 16 = 0xC000 ∧ 4 ≤ (0xC0000004#32).toNat % 2 ^ 16 := by decide

/-- UnmatchedWordsRefused, its third clause, and RefusedWordOnlySetsMark, each of its clauses. -/
theorem witness_RefusedWordOnlySetsMark :
    let s := { small with inputs := [.issue .host 0xC0000004] }
    readiness .host s = .ready ∧ decode s.cfg.cap 0xC0000004 = .error .indexOutOfRange ∧
    decodeFrom s.cfg.cap .host 0xC0000004 = .error .indexOutOfRange ∧
    encodeFrame 4 [] 0 4 = .refused .levelUndefined ∧ ∃ t, step s = .next t := ⟨rfl, rfl, rfl, rfl, _, rfl⟩

/-- SpelledWordsDecode, at its smallest capacity. -/
theorem witness_SpelledWordsDecode : 3 < small.cfg.cap := by decide

/-- RegisterMapReads: a block that does not hold the host, the lowest reserved data bit, a read-only register, the first
unassigned index, and the source's literals. -/
theorem witness_RegisterMapReads :
    (small.fault = none ∧ small.convPend = none ∧ small.stale = false) ∧ 256 ≤ (0x0100#16).toNat ∧
    Reg.cp.writable = false ∧ 8 < (0x009#12).toNat ∧
    State.reset.cfg.constMinPeriod = 18470 ∧ State.reset.cfg.tickUnit = 10 := by decide

/-- StepRunsDecodedInstruction: a tick at the head of the schedule. -/
theorem witness_StepRunsDecodedInstruction :
    let s := { small with inputs := [.issue .tickSource 0x00000000, .commit] }
    s.inputs = .issue .tickSource 0x00000000 :: [.commit] ∧ readiness .tickSource s = .ready ∧
    decode s.cfg.cap 0x00000000 = .ok .tick ∧ Instr.tick.issuer = .tickSource := ⟨rfl, rfl, rfl, rfl⟩

/-- PlacedWordRunsNext. -/
theorem witness_PlacedWordRunsNext :
    (Instr.rdSample 3).wellFormed small.cfg.cap = true ∧ readiness (Instr.rdSample 3).issuer small = .ready := by decide

/-- HeldOperationsHaveNoStep, each of its three holds. -/
theorem witness_HeldOperationsHaveNoStep :
    (faulted.fault ≠ none ∧ Instr.tick ≠ .reset) ∧
    (({ split with convPend := some 3 } : State).convPend ≠ none ∧ (Instr.convDone 1).issuer = .converter) ∧
    (({ small with stale := true } : State).stale = true ∧ Instr.rdIt.issuer = .host) := by decide

/-- HeldTurnTakesLiftingStep: each of its three holds, on a converter's, a converter's and a host's turn; the three commit turns
and the two advance turns that are not enabled. -/
theorem witness_HeldTurnTakesLiftingStep :
    (let s := { faulted with inputs := [.issue .converter 0x01000000] }
     s.inputs = .issue .converter 0x01000000 :: [] ∧ s.fault ≠ none) ∧
    (let s := { split with convPend := some 3, inputs := [.issue .converter 0x01000000] }
     s.inputs = .issue .converter 0x01000000 :: [] ∧ s.fault = none ∧ s.convPend ≠ none) ∧
    (let s := { small with stale := true, inputs := [.issue .host 0x80000000] }
     s.inputs = .issue .host 0x80000000 :: [] ∧ s.fault = none ∧ s.convPend = none ∧ s.stale = true) ∧
    (let s := { faulted with inputs := [.commit] }; s.inputs = .commit :: [] ∧ s.fault ≠ none) ∧
    (let s := { split with convPend := some 3, stale := true, inputs := [.commit] }
     s.inputs = .commit :: [] ∧ s.fault = none ∧ s.convPend ≠ none) ∧
    (let s := { small with inputs := [.commit] }
     s.inputs = .commit :: [] ∧ s.fault = none ∧ s.convPend = none ∧ s.stale = false) ∧
    (let s := { faulted with inputs := [.advance] }; s.inputs = .advance :: [] ∧ s.fault ≠ none) ∧
    (let s := { small with inputs := [.advance] }; s.inputs = .advance :: [] ∧ s.convPend = none) := by decide

/-- IdleBlockWaits, in each of its four cases. -/
theorem witness_IdleBlockWaits :
    (faulted.inputs = [] ∧ faulted.fault ≠ none) ∧
    (let s := { split with convPend := some 3 }; s.inputs = [] ∧ s.fault = none ∧ s.convPend ≠ none) ∧
    (let s := { small with stale := true }; s.inputs = [] ∧ s.convPend = none ∧ s.stale = true) ∧
    (small.inputs = [] ∧ small.stale = false) := by decide

/-- OnlyResetLeavesFault: a faulted block at which a reset, a refused word and a tick stand next. -/
theorem witness_OnlyResetLeavesFault :
    faulted.fault ≠ none ∧ (∃ t, step { faulted with inputs := [.issue .resetSource 0x02000000] } = .next t) ∧
    (∃ t, step { faulted with inputs := [.issue .resetSource 0x00000000] } = .next t) ∧
    ∃ t, step { faulted with inputs := [.issue .tickSource 0x00000000] } = .next t :=
  ⟨by decide, ⟨_, rfl⟩, ⟨_, rfl⟩, ⟨_, rfl⟩⟩

/-- RecordsOnlyGrow, ShiftPulseOnlyFromTick, OnlyTickAndResetDriveClearLine: a tick that just reaches `IT`, one that does
not, and a register read. -/
theorem witness_step :
    (∃ t, step { small with inputs := [.issue .tickSource 0x00000000] } = .next t) ∧
    (small.fault = none ∧ small.it.toNat ≤ (small.itc + 1) % 2 ^ small.cfg.wCnt) ∧
    (∃ t, step { small with it := 2, inputs := [.issue .tickSource 0x00000000] } = .next t) ∧
    ∃ t, step { small with inputs := [.issue .host 0x80000000] } = .next t :=
  ⟨⟨_, rfl⟩, by decide, ⟨_, rfl⟩, ⟨_, rfl⟩⟩

/-- TickEffect and TickReadsOnlyTiming. -/
theorem witness_TickEffect : small.fault = none ∧ ∃ t, exec .tick small = .next t := ⟨rfl, _, rfl⟩

/-- GeTickLeavesCountersBelow, with `IT` and `CP` at their bound 1. -/
theorem witness_GeTickLeavesCountersBelow :
    let s := { small with cp := 1 }
    s.cfg.compareMode = .ge ∧ s.fault = none ∧ (∃ t, exec .tick s = .next t) ∧ 1 ≤ s.it.toNat ∧ 1 ≤ s.cp.toNat :=
  ⟨rfl, rfl, ⟨_, rfl⟩, by decide, by decide⟩

/-- The start of a clear cycle with `IT` 2 and `CP` 2. -/
def cycleStart : State := { small with it := 2, cp := 2 }

/-- SteadyCyclePreIncrement, at the first and the last tick of the cycle. -/
theorem witness_SteadyCyclePreIncrement :
    cycleStart.cfg.clearAssertPhase = .preIncrement ∧ cycleStart.fault = none ∧ cycleStart.it.toNat = 2 ∧
    cycleStart.cp.toNat = 2 ∧ 2 < 2 ^ cycleStart.cfg.wCnt ∧ cycleStart.itc = 0 ∧ cycleStart.cpc = 0 ∧
    cycleStart.clr = false ∧ 1 ≤ 1 ∧ 1 ≤ 2 * 2 ∧ 4 ≤ 2 * 2 := by decide

/-- SteadyCyclePostRollover, with the smallest `n` and `m`, and with `n = m = 2` at the cycle's last tick. -/
theorem witness_SteadyCyclePostRollover :
    (let s := inMode .ge .postRollover { small with cp := 1 }
     s.cfg.clearAssertPhase = .postRollover ∧ s.fault = none ∧ s.it.toNat = 1 ∧ s.cp.toNat = 1 ∧ 1 < 2 ^ s.cfg.wCnt ∧
     s.itc = 1 - 1 ∧ s.cpc = 0 ∧ s.clr = false ∧ 1 ≤ 1 * 1) ∧
    (let s := inMode .eq .postRollover { cycleStart with itc := 1 }
     s.cfg.clearAssertPhase = .postRollover ∧ s.fault = none ∧ s.it.toNat = 2 ∧ s.cp.toNat = 2 ∧ 2 < 2 ^ s.cfg.wCnt ∧
     s.itc = 2 - 1 ∧ s.cpc = 0 ∧ s.clr = false ∧ 4 ≤ 2 * 2) := by decide

/-- EqLoweredItWaitsForWrap, with a counter of 4 bits just at the lowered bound, and the last tick before the pulse. -/
theorem witness_EqLoweredItWaitsForWrap :
    let s : State := { small with cfg := { smallConfig with compareMode := .eq, wCnt := 4 }, it := 2, itc := 2 }
    s.cfg.compareMode = .eq ∧ s.fault = none ∧ s.it.toNat = 2 ∧ 1 ≤ 2 ∧ 2 ≤ s.itc ∧ s.itc < 2 ^ s.cfg.wCnt ∧
    15 < 2 ^ s.cfg.wCnt - s.itc + 2 := by decide

/-- ConversionStoresAtCursor, with the cursor at the last cell and at capacity. -/
theorem witness_ConversionStoresAtCursor :
    (let s := { small with cur := 3 }
     s.cfg.eventAtomicity = .atomic ∧ s.fault = none ∧ s.convPend = none ∧ s.cur.toNat < s.cfg.cap) ∧
    (let s := { small with cur := 4 }
     s.cfg.eventAtomicity = .atomic ∧ s.fault = none ∧ s.convPend = none ∧ ¬s.cur.toNat < s.cfg.cap) := by decide

/-- SplitConversionLatches, likewise. -/
theorem witness_SplitConversionLatches :
    (let s := { split with cur := 3 }
     s.cfg.eventAtomicity = .interleaved ∧ s.fault = none ∧ s.convPend = none ∧ s.cur.toNat < s.cfg.cap) ∧
    (let s := { split with cur := 4 }
     s.cfg.eventAtomicity = .interleaved ∧ s.fault = none ∧ s.convPend = none ∧ ¬s.cur.toNat < s.cfg.cap) := by decide

/-- AdvanceTakesOneOfTwoOutcomes, its last clause included, with the last cell's index latched. -/
theorem witness_AdvanceTakesOneOfTwoOutcomes :
    let s := { split with cur := 3, convPend := some 3, inputs := [.advance] }
    s.inputs = .advance :: [] ∧ s.fault = none ∧ s.convPend = some 3 ∧ s.cur = 3 ∧ (3#16).toNat < s.cfg.cap := by decide

/-- LostCursorReset, under `PRE_INCREMENT`: CD8's state, with the cursor at the last cell. -/
theorem witness_LostCursorReset_pre :
    let s := { split with cur := 3 }
    s.cfg.eventAtomicity = .interleaved ∧ s.fault = none ∧ s.convPend = none ∧ s.cur.toNat < s.cfg.cap ∧
    ∃ t u, exec (.convDone 0x0033) s = .next t ∧ exec .tick t = .next u ∧
      .cursorReset ∈ u.trace.drop t.trace.length :=
  ⟨rfl, rfl, rfl, by decide, _, _, rfl, rfl, by decide⟩

/-- LostCursorReset, under `POST_ROLLOVER`: the tick is the asserting rollover. -/
theorem witness_LostCursorReset_post :
    let s := inMode .ge .postRollover { split with cur := 3 }
    s.cfg.clearAssertPhase = .postRollover ∧ s.cfg.eventAtomicity = .interleaved ∧ s.fault = none ∧ s.convPend = none ∧
    s.cur.toNat < s.cfg.cap ∧
    ∃ t u, exec (.convDone 0x0033) s = .next t ∧ exec .tick t = .next u ∧
      .cursorReset ∈ u.trace.drop t.trace.length :=
  ⟨rfl, rfl, rfl, rfl, by decide, _, _, rfl, rfl, by decide⟩

/-- ConversionsFillInOrder. -/
theorem witness_ConversionsFillInOrder :
    small.cfg.eventAtomicity = .atomic ∧ small.fault = none ∧ small.convPend = none ∧ small.cur = 0 := by decide

/-- HostWritesStore, RegisterReadsDeliver, RepeatedReadsAgree. -/
theorem witness_HostWritesStore : small.fault = none ∧ small.convPend = none ∧ small.stale = false := by decide

/-- CommitDerivesClearPeriod, with the smallest `IT`. -/
theorem witness_CommitDerivesClearPeriod :
    let s := { small with stale := true, inputs := [.commit] }
    s.inputs = .commit :: [] ∧ s.fault = none ∧ s.convPend = none ∧ s.stale = true ∧ s.it ≠ 0 := by decide

/-- CommitOfZeroFaults. -/
theorem witness_CommitOfZeroFaults :
    let s := { small with it := 0, stale := true, inputs := [.commit] }
    s.inputs = .commit :: [] ∧ s.fault = none ∧ s.convPend = none ∧ s.stale = true ∧ s.it = 0 := by decide

/-- ClearPeriodRange: the source's literals, at the smallest `it`. -/
theorem witness_ClearPeriodRange :
    State.reset.cfg.constMinPeriod / State.reset.cfg.tickUnit + 1 < 2 ^ 16 ∧ 1 ≤ 1 ∧
    State.reset.cfg.constMinPeriod = 18470 ∧ State.reset.cfg.tickUnit = 10 := by decide

/-- SetAppliesInEveryOrder: the order in which the write of `IT` comes last. -/
theorem witness_SetAppliesInEveryOrder :
    let r : SetRequest := ⟨5, 1, 2⟩
    let order : List Instr := [.wrHlevel 1, .wrVlevel 2, .wrIt 5]
    let s := { small with inputs := order.map fun i : Instr => .issue .host i.encode }
    order.Perm (setWrites r) ∧ r.it ≠ 0 ∧ s.fault = none ∧ s.convPend = none ∧ s.stale = false ∧
    s.inputs = order.map (fun i : Instr => .issue .host i.encode) := by decide

/-- SampleReadDeliversOrFaults: the last cell written, and unwritten. -/
theorem witness_SampleReadDeliversOrFaults :
    let s := { small with buf := [(3, 7)] }
    s.fault = none ∧ s.convPend = none ∧ s.stale = false ∧ (3#16).toNat < s.cfg.cap ∧ s.buf.read (3#16).toNat = some 7 ∧
    small.buf.read (3#16).toNat = none := by decide

/-- HorizontalLevelIsNeverRead, each of its clauses. -/
theorem witness_HorizontalLevelIsNeverRead :
    (∃ t, exec .rdCp small = .next t) ∧ (∃ t, exec (.wrHlevel 255) small = .next t) ∧ readiness .host small = .ready ∧
    ∃ t, exec .reset small = .next t := ⟨⟨_, rfl⟩, ⟨_, rfl⟩, rfl, ⟨_, rfl⟩⟩

/-- ResetRestoresPowerOn, its clauses with premises. -/
theorem witness_ResetRestoresPowerOn :
    faulted.fault ≠ none ∧ Instr.rdIt ≠ .reset ∧ State.reset.cfg.constMinPeriod = 18470 ∧
    State.reset.cfg.tickUnit = 10 ∧ State.reset.inputs = [] := by decide

/-- OperationsWriteOnlyTheirState: an operation that none of its clauses names. -/
theorem witness_OperationsWriteOnlyTheirState :
    (∃ t, exec .rdCur small = .next t) ∧ Instr.rdCur.wellFormed small.cfg.cap = true := ⟨⟨_, rfl⟩, rfl⟩

/-- StepKeepsInvariant, from a state in which a conversion has filled the buffer and the schedule holds another. -/
theorem witness_StepKeepsInvariant :
    let s := { small with cur := 4, buf := frameBuffer, inputs := [.issue .converter 0x01000555] }
    Inv s ∧ ∃ t, step s = .next t :=
  ⟨⟨by decide, by decide, by decide, by decide, by decide, by decide, by intro; rfl, by decide, by decide, by decide,
    by rintro c ⟨⟩, by decide, by rintro c ⟨⟩, by rintro c ⟨⟩⟩, _, rfl⟩

/-- StepKeepsBufferCanonical, with a conversion to the last cell next. -/
theorem witness_StepKeepsBufferCanonical :
    let s := { small with cur := 3, buf := [(0, 1), (2, 5)], inputs := [.issue .converter 0x01000555] }
    s.buf.wf = true ∧ (∀ e ∈ s.buf, e.1 < s.cfg.cap) ∧ ∃ t, step s = .next t := ⟨by decide, by decide, _, rfl⟩

/-- FrameLengthAndPacking, at the top packing level and at the top column-skip level (no sample consumed). -/
theorem witness_FrameLengthAndPacking :
    ((2#8).toNat < 32 ∧ (3#8).toNat < 4 ∧ ∀ i, i < 4 >>> 2 → frameBuffer.read (i <<< 2) = some 0x0FC0) ∧
    ((31#8).toNat < 32 ∧ 4 >>> 31 = 0) := by decide

/-- UndefinedLevelsRefused, at the edges of its cases. -/
theorem witness_UndefinedLevelsRefused :
    (4 ≤ (4#8).toNat ∨ 32 ≤ (0#8).toNat) ∧ ¬(4 ≤ (3#8).toNat ∨ 32 ≤ (31#8).toNat) ∧ 16 ≤ (16#8).toNat ∧
    65535 ≤ 65535 := by decide

/-- EncodeByReads, each of its three ends. -/
theorem witness_EncodeByReads :
    (streaming.fault = none ∧ streaming.convPend = none ∧ streaming.stale = false) ∧
    encodeFrame streaming.cfg.cap streaming.buf streaming.hl streaming.vl = .frame [0x0F, 0xC0, 0x0A, 0xBC] ∧
    (let s := { streaming with buf := [(0, 1)] }
     encodeFrame s.cfg.cap s.buf s.hl s.vl = .faulted ⟨.unwrittenRead, 2⟩) ∧
    (let s := { streaming with vl := 4 }
     ∃ r, encodeFrame s.cfg.cap s.buf s.hl s.vl = .refused r) := ⟨by decide, by decide, by decide, _, rfl⟩

/-- LiveReadDeliversCellAtItsTime: the last cell, with a commit pending and a conversion in flight after the others' turns; in
a block that `DIV_ZERO` has halted; and with a commit of `IT = 0` pending. -/
theorem witness_LiveReadDeliversCellAtItsTime :
    (let u := takeTurns (othersTurns [.issue .tickSource 0x00000000, .issue .converter 0x01000111])
      { split with it := 5, cur := 3, stale := true }
     (3#16).toNat < u.cfg.cap ∧ u.fault = none ∧ u.stale = true ∧ u.it ≠ 0 ∧ u.convPend = some 0) ∧
    (let u := takeTurns (othersTurns [.issue .tickSource 0x00000000]) faulted
     (3#16).toNat < u.cfg.cap ∧ u.fault = some ⟨.divZero, 0⟩) ∧
    (let u := takeTurns (othersTurns []) { small with it := 0, stale := true }
     (3#16).toNat < u.cfg.cap ∧ u.fault = none ∧ u.stale = true ∧ u.it = 0) := by decide

/-- LiveEncodeUnderTicks, with two ticks before the first read and one before the third; each of its three ends. -/
theorem witness_LiveEncodeUnderTicks :
    let between : List (List Turn) :=
      [List.replicate 2 (.issue .tickSource 0x00000000), [], [.issue .tickSource 0x00000000]]
    (streaming.fault = none ∧ streaming.convPend = none ∧ streaming.stale = false) ∧
    (∀ ts ∈ between, ∀ t ∈ ts, t = .issue .tickSource 0x00000000) ∧
    (liveEncode false between streaming).2 = .frame [0x0F, 0xC0, 0x0A, 0xBC] ∧
    (liveEncode false between { streaming with buf := [(0, 1)] }).2 = .faulted ⟨.unwrittenRead, 2⟩ ∧
    (liveEncode false between { streaming with hl := 32 }).2 = .refused .levelUndefined := by decide

/-- FaultsHaveTwoRaisers: the commit with nothing scheduled, at its own turn and ahead of the host's next word, and the read. -/
theorem witness_FaultsHaveTwoRaisers :
    (∀ inputs ∈ [[], [.commit], [.issue .host 0x80000000]],
      let s := { small with it := 0, stale := true, inputs := inputs }
      s.fault = none ∧ stepped State.fault s = some (some ⟨.divZero, 0⟩)) ∧
    (let s := { small with inputs := [.issue .host 0xC0000003] }
     s.fault = none ∧ stepped State.fault s = some (some ⟨.unwrittenRead, 3⟩)) := by decide

/-- InvariantHoldsAtReset, at the largest period that fits, in parameters unlike the default's. -/
theorem witness_InvariantHoldsAtReset :
    let c : Config := { smallConfig with constMinPeriod := 655340, compareMode := .eq, clearAssertPhase := .postRollover
                                         eventAtomicity := .interleaved, wCnt := 4 }
    c.constMinPeriod / c.tickUnit + 1 = 65535 ∧ c.constMinPeriod / c.tickUnit + 1 < 65536 := by decide

/-- OnlyCommitProgramsAfe: a tick, a commit turn that is enabled, one that is not, and a reset. -/
theorem witness_OnlyCommitProgramsAfe :
    (∃ t, step { small with inputs := [.issue .tickSource 0x00000000] } = .next t) ∧
    (∃ t, step { small with stale := true, inputs := [.commit] } = .next t) ∧
    (∃ t, step { small with inputs := [.commit] } = .next t) ∧
    ∃ t, step { small with stale := true, inputs := [.issue .resetSource 0x02000000] } = .next t :=
  ⟨⟨_, rfl⟩, ⟨_, rfl⟩, ⟨_, rfl⟩, _, rfl⟩

end Sys2Proof.Tests
end

section
/-! PROOFS. The register map R40: what a WRITE or READ word of each register index decodes to, what a register reads as, and
what a write stores. -/

namespace Sys2Proof

/-! ### WRITE and READ words, by their register index (R73, R74) -/

/-- Bits [31:16] of a word. -/
theorem halves_toNat_div (a b : Data16) : (halves a b).toNat / 2 ^ 16 = a.toNat := by
  have := b.isLt
  rw [halves_toNat]
  omega

/-- Bits [31:16] of a WRITE or READ word: the class with its two reserved bits, then `REG`. -/
theorem accessWord_toNat_div (c : BitVec 4) (x : BitVec 12) (d : Data16) :
    (halves (c ++ x) d).toNat / 2 ^ 16 = c.toNat * 2 ^ 12 + x.toNat := by
  rw [halves_toNat_div, BitVec.toNat_append, ← Nat.shiftLeft_add_eq_or_of_lt x.isLt, Nat.shiftLeft_eq]

/-- Bits [15:0] of a word. -/
theorem halves_toNat_mod (a b : Data16) : (halves a b).toNat % 2 ^ 16 = b.toNat := by
  rw [← dataField_toNat, dataField_halves]

/-- Bits [15:8] of a word. -/
theorem halves_toNat_dataHigh (a b : Data16) : (halves a b).toNat / 2 ^ 8 % 2 ^ 8 = b.toNat / 2 ^ 8 := by
  have := b.isLt
  rw [halves_toNat]
  omega

/-- The decoder on a WRITE word with bits [29:28] 0, by its register index and data. -/
theorem decode_writeWord (cap : Nat) (x : BitVec 12) (d : Data16) : decode cap (0x4#4 ++ x ++ d) =
    if x.toNat = 0 then .ok (.wrIt d)
    else if x.toNat = 1 ∧ d.toNat / 2 ^ 8 = 0 then .ok (.wrHlevel (dataLow (halves (0x4#4 ++ x) d)))
    else if x.toNat = 2 ∧ d.toNat / 2 ^ 8 = 0 then .ok (.wrVlevel (dataLow (halves (0x4#4 ++ x) d)))
    else if 3 ≤ x.toNat ∧ x.toNat ≤ 8 then .error .writeReadOnly
    else .error .reservedEncoding := by
  change decode cap (halves (0x4#4 ++ x) d) = _
  have hx := x.isLt
  have hhigh : (halves (0x4#4 ++ x) d).toNat / 2 ^ 16 = 0x4000 + x.toNat := accessWord_toNat_div _ x _
  have hclass : (halves (0x4#4 ++ x) d).toNat / 2 ^ 30 = 1 := by omega
  have index_eq (k : Nat) : 0x4000 + x.toNat = 0x4000 + k ↔ x.toNat = k := by omega
  have index_range : (0x4003 ≤ 0x4000 + x.toNat ∧ 0x4000 + x.toNat ≤ 0x4008) ↔ (3 ≤ x.toNat ∧ x.toNat ≤ 8) := by omega
  rw [decode_class, hclass, if_neg (by decide), if_pos rfl, decodeWrite_num _ hclass, hhigh, halves_toNat_dataHigh,
    dataField_halves]
  simp only [index_eq 0, index_eq 1, index_eq 2, index_range]

/-- The write of `IT` takes every value of its data. -/
theorem decode_writeWord_it (cap : Nat) (d : Data16) : decode cap (0x4#4 ++ 0x000#12 ++ d) = .ok (.wrIt d) := by
  rw [decode_writeWord, if_pos (by decide)]

/-- The level writes store the low byte of their data. -/
theorem decode_writeWord_level (cap : Nat) (v : Byte) :
    decode cap (0x4#4 ++ 0x001#12 ++ levelData v) = .ok (.wrHlevel v) ∧
    decode cap (0x4#4 ++ 0x002#12 ++ levelData v) = .ok (.wrVlevel v) := by
  have hv : (levelData v).toNat < 256 := levelData_toNat v ▸ v.isLt
  rw [decode_writeWord, decode_writeWord]
  simp [hv, dataLow_halves]

/-- A level write with a bit of `DATA[15:8]` set is refused. -/
theorem decode_writeWord_levelReserved (cap : Nat) {d : Data16} (hd : 256 ≤ d.toNat) :
    decode cap (0x4#4 ++ 0x001#12 ++ d) = .error .reservedEncoding ∧
    decode cap (0x4#4 ++ 0x002#12 ++ d) = .error .reservedEncoding := by
  rw [decode_writeWord, decode_writeWord]
  simp [hd]

/-- A WRITE of an index above the map is refused. -/
theorem decode_writeWord_unassigned (cap : Nat) {x : BitVec 12} (hx : 8 < x.toNat) (d : Data16) :
    decode cap (0x4#4 ++ x ++ d) = .error .reservedEncoding := by
  rw [decode_writeWord]
  repeat rw [if_neg (by omega)]

/-- A READ of an index above the map is refused. -/
theorem decode_readWord_unassigned (cap : Nat) {x : BitVec 12} (hx : 8 < x.toNat) :
    decode cap (0x8#4 ++ x ++ 0x0000#16) = .error .reservedEncoding := by
  change decode cap (halves (0x8#4 ++ x) 0) = _
  have hlt := x.isLt
  have hhigh : (halves (0x8#4 ++ x) 0).toNat / 2 ^ 16 = 0x8000 + x.toNat := accessWord_toNat_div _ x _
  have hdata : (halves (0x8#4 ++ x) 0).toNat % 2 ^ 16 = 0 := halves_toNat_mod _ _
  have hclass : (halves (0x8#4 ++ x) 0).toNat / 2 ^ 30 = 2 := by omega
  rw [decode_class, hclass, if_neg (by decide), if_neg (by decide), if_pos rfl, decodeRead_num _ hclass, hhigh]
  repeat rw [if_neg (by omega)]

namespace Machine

/-! ### The registers of the map (R40) -/

/-- A READ word of an assigned index is the word of that register's read. -/
theorem decode_readWord (cap : Nat) (r : Reg) : decode cap (0x8#4 ++ r.index ++ 0x0000#16) = .ok r.readInstr := by
  cases r <;> rfl

/-- The read-only registers are those at 0x003 to 0x008. -/
theorem Reg.index_of_readOnly (r : Reg) : r.writable = false → 3 ≤ r.index.toNat ∧ r.index.toNat ≤ 8 := by
  cases r <;> decide

/-- A WRITE of a read-only register is refused. -/
theorem decode_writeWord_readOnly (cap : Nat) {r : Reg} (h : r.writable = false) (d : Data16) :
    decode cap (0x4#4 ++ r.index ++ d) = .error .writeReadOnly := by
  have hr := Reg.index_of_readOnly r h
  rw [decode_writeWord]
  repeat rw [if_neg (by omega)]
  rw [if_pos hr]

/-- A level in the 16-bit data path keeps its number: bits [15:8] read 0. -/
@[simp] theorem zext16_toNat (v : Byte) : (zext16 v).toNat = v.toNat :=
  BitVec.toNat_setWidth_of_le (by decide)

/-- STATUS has bit 0 only, the clear line. -/
theorem statusWord_toNat (s : State) : (statusWord s).toNat = if s.clr = true then 1 else 0 := by
  unfold statusWord
  split <;> rfl

/-- A read of a host that has a step delivers the register and changes nothing. -/
theorem exec_readInstr {s : State} (h : readiness .host s = .ready) (r : Reg) :
    exec r.readInstr s = .next { s with trace := s.trace ++ [.readData (r.value s)] } := by
  rw [exec_ready ((issuer_readInstr r).symm ▸ h), effect_readInstr]
  rfl

/-- After reset every register reads as the map's reset column says. -/
theorem Reg.value_resetFor (c : Config) (r : Reg) : r.value (State.resetFor c) = r.resetValue c := by
  cases r <;> rfl

/-- `CP` after reset with the source's literals. -/
theorem Reg.resetValue_cp_source {c : Config} (hp : c.constMinPeriod = 18470) (hu : c.tickUnit = 10) :
    Reg.resetValue .cp c = 1848 := by
  simp only [Reg.resetValue, clearPeriod, hp, hu]
  rfl

/-- Settles O9: each clause is one of the lemmas above on the decoder, the reads or the writes. -/
theorem registerMapReads : Obligations.RegisterMapReads := by
  refine ⟨decode_readWord, fun s r hf hp hs => ⟨r.value s, exec_readInstr (readiness_host hf hp hs) r, ?_⟩,
    decode_writeWord_it, decode_writeWord_level, fun s hf hp hs => ?_,
    fun cap _ => decode_writeWord_levelReserved cap, fun cap _ d h => decode_writeWord_readOnly cap h d,
    fun cap _ d hx => ⟨decode_readWord_unassigned cap hx, decode_writeWord_unassigned cap hx d⟩,
    Reg.value_resetFor, fun _ => Reg.resetValue_cp_source⟩
  · cases r
    case hl | vl | afe => exact zext16_toNat _
    case status => exact statusWord_toNat s
    case itc | cpc => exact BitVec.toNat_ofNat _ _
    case it | cp | cur => rfl
  · have hr := readiness_host hf hp hs
    exact ⟨fun _ => exec_ready hr, fun _ => exec_ready hr, fun _ => exec_ready hr⟩

end Machine
end Sys2Proof
end

section
/-! PROOFS. Refused words and the agent rule (30_encoding.md R77, R78, R81): what it means that no row of the opcode map
accepts a word, how the decoder refuses such a word, and whose operation a word is that decodes. -/

namespace Sys2Proof

/-! ### Words outside the opcode map -/

/-- The words that no row accepts, by number: the three EVENT rows, the three WRITE rows, the nine READ rows at once, and
the row of `RD_SAMPLE`. -/
theorem rejected_iff (w : OpWord) : (∀ row ∈ opcodeTable, row.accepts w = false) ↔
    (w.toNat ≠ 0 ∧ w.toNat / 2 ^ 16 ≠ 0x0100 ∧ w.toNat ≠ 0x02000000) ∧
    (w.toNat / 2 ^ 16 ≠ 0x4000 ∧ w.toNat / 2 ^ 8 ≠ 0x400100 ∧ w.toNat / 2 ^ 8 ≠ 0x400200) ∧
    (w.toNat % 2 ^ 16 = 0 → 0x8000 ≤ w.toNat / 2 ^ 16 → 0x8008 < w.toNat / 2 ^ 16) ∧
    w.toNat / 2 ^ 16 ≠ 0xC000 := by
  have rows := opcodeTable_forall w (fun _ => False)
  simp only [imp_false, Bool.not_eq_true] at rows
  rw [rows]
  omega

/-- R78: the decoder refuses every word that no row accepts. -/
theorem decode_of_rejected (cap : Nat) {w : OpWord} (h : ∀ row ∈ opcodeTable, row.accepts w = false) :
    decode cap w =
      .error (if 0x4003 ≤ w.toNat / 2 ^ 16 ∧ w.toNat / 2 ^ 16 ≤ 0x4008 then .writeReadOnly else .reservedEncoding) := by
  have hlt := w.isLt
  obtain ⟨hevent, hwrite, hread, hsample⟩ := (rejected_iff w).mp h
  rw [decode_class]
  obtain hc | hc | hc | hc :
      w.toNat / 2 ^ 30 = 0 ∨ w.toNat / 2 ^ 30 = 1 ∨ w.toNat / 2 ^ 30 = 2 ∨ w.toNat / 2 ^ 30 = 3 := by omega
  · rw [if_pos hc, decodeEvent_num w hc]
    repeat rw [if_neg (by omega)]
  · rw [if_neg (by omega), if_pos hc, decodeWrite_num w hc]
    repeat rw [if_neg (by omega)]
    split <;> rfl
  · rw [if_neg (by omega), if_neg (by omega), if_pos hc, decodeRead_num w hc]
    by_cases hd : w.toNat % 2 ^ 16 = 0
    · repeat rw [if_neg (by omega)]
    · rw [if_pos hd, if_neg (by omega)]
  · rw [if_neg (by omega), if_neg (by omega), if_neg (by omega), decodeSampleRead_num w cap hc, if_pos hsample,
      if_neg (by omega)]

/-- R78: a SAMPLE_READ word whose index is not below the capacity. -/
theorem decode_sampleRead_outOfRange {cap : Nat} {w : OpWord} (hw : w.toNat / 2 ^ 16 = 0xC000)
    (hidx : cap ≤ w.toNat % 2 ^ 16) : decode cap w = .error .indexOutOfRange := by
  have hc : w.toNat / 2 ^ 30 = 3 := by omega
  rw [decode_class, hc, if_neg (by decide), if_neg (by decide), if_neg (by decide), decodeSampleRead_num w cap hc,
    if_neg (not_not.mpr hw), if_pos hidx]

/-- Settles O5: each must-be-0 bit excludes every row, and sets no word among the WRITEs to read-only registers. -/
theorem reservedBitsRefuse : Obligations.ReservedBitsRefuse := by
  intro cap w hbits
  have hrejected : ∀ row ∈ opcodeTable, row.accepts w = false := by
    rw [rejected_iff]
    omega
  have hnotReadOnly : ¬(0x4003 ≤ w.toNat / 2 ^ 16 ∧ w.toNat / 2 ^ 16 ≤ 0x4008) := by omega
  exact ⟨hrejected, by rw [decode_of_rejected cap hrejected, if_neg hnotReadOnly]⟩

/-! ### The agent rule (R81) -/

/-- The decoder's refusal is the refusal of the word from every agent. -/
theorem decodeFrom_of_error {cap : Nat} {w : OpWord} {r : RefuseReason} (h : decode cap w = .error r) (a : Agent) :
    decodeFrom cap a w = .error r := by
  simp only [decodeFrom, h]

/-- A word that decodes is accepted from its operation's agent only. -/
theorem decodeFrom_of_ok {cap : Nat} {w : OpWord} {i : Instr} (h : decode cap w = .ok i) (a : Agent) :
    decodeFrom cap a w = if i.issuer = a then .ok i else .error .wrongAgent := by
  simp only [decodeFrom, h]

/-- An operation of an EVENT word is issued by the event's source. -/
theorem issuer_of_decodeEvent {w : OpWord} {i : Instr} (hc : w.toNat / 2 ^ 30 = 0) (h : decodeEvent w = .ok i) :
    (i.issuer = .tickSource ∧ w.toNat / 2 ^ 24 = 0) ∨ (i.issuer = .converter ∧ w.toNat / 2 ^ 24 = 1) ∨
    (i.issuer = .resetSource ∧ w.toNat / 2 ^ 24 = 2) := by
  rw [decodeEvent_num w hc] at h
  split_ifs at h with htick hconv hreset <;> cases h
  · exact .inl ⟨rfl, by omega⟩
  · exact .inr (.inl ⟨rfl, by omega⟩)
  · exact .inr (.inr ⟨rfl, by omega⟩)

/-- A decoder's test yields one agent's operations where both its branches do. -/
theorem issuer_of_ite {c : Prop} [Decidable c] {x y : Except RefuseReason Instr} {a : Agent}
    (hx : ∀ i, x = .ok i → i.issuer = a) (hy : ∀ i, y = .ok i → i.issuer = a) :
    ∀ i, (if c then x else y) = .ok i → i.issuer = a := by
  split
  · exact hx
  · exact hy

/-- An operation of a WRITE, READ or SAMPLE_READ word is the host's. -/
theorem issuer_of_decode_access {cap : Nat} {w : OpWord} (hc : w.toNat / 2 ^ 30 ≠ 0) :
    ∀ i, decode cap w = .ok i → i.issuer = .host := by
  rw [decode_class, if_neg hc]
  unfold decodeWrite decodeRead decodeSampleRead
  repeat' apply issuer_of_ite
  all_goals rintro i ⟨⟩ <;> rfl

/-- Whose operation a word is that decodes, by the word's class and event number. -/
theorem issuer_of_decode {cap : Nat} {w : OpWord} {i : Instr} (h : decode cap w = .ok i) :
    (i.issuer = .tickSource ∧ w.toNat / 2 ^ 24 = 0) ∨ (i.issuer = .converter ∧ w.toNat / 2 ^ 24 = 1) ∨
    (i.issuer = .resetSource ∧ w.toNat / 2 ^ 24 = 2) ∨ (i.issuer = .host ∧ w.toNat / 2 ^ 30 ≠ 0) := by
  by_cases hc : w.toNat / 2 ^ 30 = 0
  · rw [decode_class, if_pos hc] at h
    obtain htick | hconv | hreset := issuer_of_decodeEvent hc h
    · exact .inl htick
    · exact .inr (.inl hconv)
    · exact .inr (.inr (.inl hreset))
  · exact .inr (.inr (.inr ⟨issuer_of_decode_access hc i h, hc⟩))

/-- Settles O7: the agent of the operation is the one agent that R81 allows for the word. -/
theorem agentsIssueOnlyTheirClass : Obligations.AgentsIssueOnlyTheirClass := by
  intro cap a w i h
  rw [decodeFrom_of_ok h]
  refine if_congr ?_ rfl rfl
  obtain ⟨hi, hw⟩ | ⟨hi, hw⟩ | ⟨hi, hw⟩ | ⟨hi, hw⟩ := issuer_of_decode h
  all_goals cases a <;> simp [hi] <;> omega

namespace Machine

/-- A word that the decoder refuses, from an agent that has a step, sets the mark and uses up its turn (R188). -/
theorem step_of_decode_error {s : State} {a : Agent} {w : OpWord} {rest : List Turn} {r : RefuseReason}
    (hin : s.inputs = .issue a w :: rest) (hready : readiness a s = .ready) (h : decode s.cfg.cap w = .error r) :
    step s = .next ((s.setInputs rest).refuse r) := by
  obtain ⟨-, hrefuse, -⟩ := step_issue hin
  exact hrefuse hready r (decodeFrom_of_error h a)

/-- Settles O6: the decoder's two kinds of refusal, and the step of a refused word. -/
theorem unmatchedWordsRefused : Obligations.UnmatchedWordsRefused :=
  ⟨fun cap _ => decode_of_rejected cap, fun _ _ => decode_sampleRead_outOfRange,
    fun _ _ _ _ _ => step_of_decode_error⟩

end Machine
end Sys2Proof
end

section
/-! PROOFS. The pulse scheduler (40_pulse_scheduler.md): the whole effect of a tick (R90, R93, R95), and that a shift pulse
comes from a rollover and from nothing else (R94). -/

namespace Sys2Proof

/-- The one word of `TICK` is all zeros (R72). -/
theorem decode_eq_tick_iff {cap : Nat} {w : OpWord} : decode cap w = .ok .tick ↔ w = 0x00000000 := by
  constructor
  · intro h
    obtain ⟨-, hevent⟩ | ⟨hissuer, -⟩ | ⟨hissuer, -⟩ | ⟨hissuer, -⟩ := issuer_of_decode h
    · have hclass : w.toNat / 2 ^ 30 = 0 := by omega
      rw [decode_class, if_pos hclass, decodeEvent_num w hclass] at h
      split_ifs at h with hzero <;> cases h
      refine (field_eq_iff w 0).mpr ?_
      change w.toNat = 0
      omega
    all_goals cases hissuer
  · rintro rfl
    rfl

theorem decodeFrom_tickWord (cap : Nat) : decodeFrom cap .tickSource 0x00000000 = .ok .tick :=
  decodeFrom_ok.mpr ⟨decode_eq_tick_iff.mpr rfl, rfl⟩

namespace Machine

/-! ### The effect of a tick -/

/-- `cmp` in both modes at once (R9). -/
theorem reaches_eq (c : Config) (a b : Nat) :
    reaches c a b = if c.compareMode = .eq then decide (a = b) else decide (b ≤ a) := by
  cases h : c.compareMode
  · simp [reaches_of_eq h]
  · simp [reaches_of_ge h]

theorem reaches_iff (c : Config) (a b : Nat) :
    reaches c a b = true ↔ if c.compareMode = .eq then a = b else b ≤ a := by
  rw [reaches_eq]
  split <;> exact decide_eq_true_iff

theorem readiness_tickSource_iff {s : State} : readiness .tickSource s = .ready ↔ s.fault = none := by
  refine ⟨fun hready => ?_, readiness_tickSource⟩
  by_contra hfault
  cases hready.symm.trans (readiness_halted hfault (by decide))

theorem exec_tick {s : State} (h : s.fault = none) : exec .tick s = .next (tick s) :=
  exec_ready (i := .tick) (readiness_tickSource h)

/-- Settles O19: the parts of a tick one after the other, where only one of the two clear-assert tests is at its place. -/
theorem tickEffect : Obligations.TickEffect := by
  intro s hfault
  refine ⟨decodeFrom_tickWord s.cfg.cap, ?_⟩
  rw [exec_tick hfault]
  simp only [← reaches_eq, tick, clearAssertTest_eq, shiftRollover_eq, clearCycleEnd_eq, countTick, trunc]
  cases hphase : s.cfg.clearAssertPhase <;> simp

/-! ### Shift pulses (R94) -/

/-- From `s` to `t` the trace grows, by outputs that hold `n` shift pulses. -/
def EmitsPulses (n : Nat) (s t : State) : Prop :=
  ∃ outs, t.trace = s.trace ++ outs ∧ shiftPulses outs = n

theorem EmitsPulses.of_trace {s t : State} {outs : List Output} (h : t.trace = s.trace ++ outs) :
    EmitsPulses (shiftPulses outs) s t :=
  ⟨outs, h, rfl⟩

theorem EmitsPulses.of_trace_eq {s t : State} (h : t.trace = s.trace) : EmitsPulses 0 s t :=
  .of_trace (outs := []) (by rw [h, List.append_nil])

theorem EmitsPulses.trans {m n : Nat} {s t u : State} (hst : EmitsPulses m s t) (htu : EmitsPulses n t u) :
    EmitsPulses (m + n) s u := by
  obtain ⟨outs, ht, rfl⟩ := hst
  obtain ⟨outs', hu, rfl⟩ := htu
  exact ⟨outs ++ outs', by rw [hu, ht, List.append_assoc], List.count_append⟩

theorem clearAssertTest_emitsPulses (place : ClearAssertPhase) (s : State) :
    EmitsPulses 0 s (clearAssertTest place s) := by
  unfold clearAssertTest
  split
  · exact .of_trace (assertClear_trace s)
  · exact .of_trace_eq rfl

theorem shiftRollover_emitsPulses (s : State) :
    EmitsPulses (if reaches s.cfg s.itc s.it.toNat then 1 else 0) s (shiftRollover s) := by
  unfold shiftRollover
  split
  · exact .of_trace (outs := [.shFire]) rfl
  · exact .of_trace_eq rfl

theorem clearCycleEnd_emitsPulses (s : State) : EmitsPulses 0 s (clearCycleEnd s) := by
  unfold clearCycleEnd
  split
  · exact .of_trace (deassertClear_trace _)
  · exact .of_trace_eq rfl

/-- A tick emits one shift pulse where its count reaches `IT`, and otherwise none. -/
theorem tick_emitsPulses (s : State) :
    EmitsPulses (if reaches s.cfg (trunc s.cfg.wCnt (s.itc + 1)) s.it.toNat then 1 else 0) s (tick s) := by
  have hcount : EmitsPulses 0 s (countTick (clearAssertTest .preIncrement s)) :=
    clearAssertTest_emitsPulses .preIncrement s
  have hroll := hcount.trans (shiftRollover_emitsPulses _)
  have htick := (hroll.trans (clearAssertTest_emitsPulses .postRollover _)).trans (clearCycleEnd_emitsPulses _)
  simpa [countTick, clearAssertTest_eq, tick] using htick

/-- No operation but `TICK` emits a shift pulse. -/
theorem effect_emitsPulses {i : Instr} (hi : i ≠ .tick) (s : State) : EmitsPulses 0 s (effect i s) := by
  cases i with
  | tick => contradiction
  | convDone code =>
    obtain ⟨-, -, h⟩ | ⟨-, -, h⟩ | ⟨-, h⟩ := convDone_cases code s <;>
      exact .of_trace_eq (congrArg State.trace h :)
  | rdSample j =>
    obtain ⟨v, -, -, h⟩ | ⟨-, -, h⟩ | ⟨-, h⟩ := readSample_cases j s
    · exact .of_trace (outs := [.readData v]) (congrArg State.trace h)
    · exact .of_trace_eq (congrArg State.trace h :)
    · exact .of_trace_eq (congrArg State.trace h :)
  | reset | wrIt | wrHlevel | wrVlevel => exact .of_trace_eq rfl
  | rdIt | rdHlevel | rdVlevel | rdCp | rdItc | rdCpc | rdStatus | rdCur | rdAfe =>
    exact .of_trace (outs := [.readData _]) rfl

theorem convAdvance_trace (s : State) : (convAdvance s).trace = s.trace := by
  obtain ⟨-, h⟩ | ⟨c, cur, -, -, h⟩ := convAdvance_cases s <;> rw [h]

theorem cpCommit_emitsPulses (s : State) : EmitsPulses 0 s (cpCommit s) := by
  obtain ⟨-, h⟩ | ⟨-, h⟩ := cpCommit_cases s
  · exact .of_trace_eq (congrArg State.trace h :)
  · exact .of_trace (outs := [.afeSet s.vl]) (congrArg State.trace h)

/-- The tick source's turn with the word of `TICK` in a block without a fault is a tick. -/
theorem step_tick {s : State} {rest : List Turn} (hin : s.inputs = .issue .tickSource 0x00000000 :: rest)
    (hfault : s.fault = none) : step s = .next (tick (s.setInputs rest)) := by
  obtain ⟨hrun, -⟩ := step_issue hin
  rw [hrun (readiness_tickSource hfault) .tick (decodeFrom_tickWord s.cfg.cap), exec_tick (s := s.setInputs rest) hfault]

/-- A step that is no tick emits no shift pulse. -/
theorem step_emitsPulses_of_not_tick {s t : State} (h : step s = .next t)
    (hno : ¬((∃ rest, s.inputs = .issue .tickSource 0x00000000 :: rest) ∧ s.fault = none)) : EmitsPulses 0 s t := by
  obtain ⟨a, w, rest, i, hin, hready, hdec, rfl, rfl⟩ | ⟨a, w, rest, r, -, -, -, rfl⟩ | ⟨rest, -, -, rfl, -⟩ |
    ⟨rest, -, -, -, rfl, -⟩ | ⟨rest, rfl, -⟩ := step_cases h
  · refine effect_emitsPulses (i := i) ?_ (s.setInputs rest)
    rintro rfl
    obtain rfl := decode_eq_tick_iff.mp hdec
    exact hno ⟨⟨rest, hin⟩, readiness_tickSource_iff.mp hready⟩
  · exact .of_trace_eq rfl
  · exact .of_trace_eq (convAdvance_trace _)
  · exact cpCommit_emitsPulses (s.setInputs rest)
  · exact .of_trace_eq rfl

/-- Settles O21: a tick emits a shift pulse exactly where its count reaches `IT`, and a step that is no tick emits none. -/
theorem shiftPulseOnlyFromTick : Obligations.ShiftPulseOnlyFromTick := by
  intro s t h
  by_cases htick : (∃ rest, s.inputs = .issue .tickSource 0x00000000 :: rest) ∧ s.fault = none
  · obtain ⟨⟨rest, hin⟩, hfault⟩ := htick
    cases (step_tick hin hfault).symm.trans h
    obtain ⟨outs, htrace, hpulses⟩ := tick_emitsPulses (s.setInputs rest)
    refine ⟨outs, htrace, fun ⟨_, _, hroll⟩ => ?_, fun hno => ?_⟩
    · exact hpulses.trans (if_pos ((reaches_iff _ _ _).mpr hroll))
    · exact hpulses.trans (if_neg fun hroll => hno ⟨⟨rest, hin⟩, hfault, (reaches_iff _ _ _).mp hroll⟩)
  · obtain ⟨outs, htrace, hnone⟩ := step_emitsPulses_of_not_tick h htick
    exact ⟨outs, htrace, fun ⟨hturn, hfault, _⟩ => absurd ⟨hturn, hfault⟩ htick, fun _ => hnone⟩

end Machine
end Sys2Proof
end

section
/-! PROOFS. Sample acquisition under `ATOMIC` (41_sample_acquisition.md R110 to R114): the converter's word, and the
conversion that it issues. -/

namespace Sys2Proof

/-- A word with bits [31:16] 0x0100 is `CONV_DONE` of its bits [15:0], every code of them (R72, R114). -/
theorem decode_convDoneWord (cap : Nat) (code : Data16) :
    decode cap (halves 0x0100 code) = .ok (.convDone code) := by
  have hhigh : (halves 0x0100 code).toNat / 2 ^ 16 = 0x0100 := halves_toNat_div _ _
  have hclass : (halves 0x0100 code).toNat / 2 ^ 30 = 0 := by omega
  rw [decode_class, if_pos hclass, decodeEvent_num _ hclass, hhigh, if_neg (by omega), if_pos rfl, dataField_halves]

theorem decodeFrom_convDoneWord (cap : Nat) (code : Data16) :
    decodeFrom cap .converter (halves 0x0100 code) = .ok (.convDone code) :=
  decodeFrom_ok.mpr ⟨decode_convDoneWord cap code, rfl⟩

namespace Machine

/-- A cursor below capacity does not wrap when it advances, since `CAP` is at most 65535 (R6). -/
theorem cursor_advance_toNat {s : State} (h : s.cur.toNat < s.cfg.cap) : (s.cur + 1).toNat = s.cur.toNat + 1 :=
  BitVec.toNat_add_of_lt (show s.cur.toNat + 1 < 2 ^ 16 by have := s.cfg.capLe; omega)

/-- At capacity a conversion is discarded, in either atomicity (R111, R112). -/
theorem convDone_discards {s : State} (h : ¬s.cur.toNat < s.cfg.cap) (code : Data16) : convDone code s = s := by
  obtain ⟨hlt, -, -⟩ | ⟨hlt, -, -⟩ | ⟨-, hdone⟩ := convDone_cases code s
  · exact absurd hlt h
  · exact absurd hlt h
  · exact hdone

/-- Below capacity an atomic conversion writes the cell at the cursor and advances the cursor (R110). -/
theorem convDone_atomic {s : State} (ha : s.cfg.eventAtomicity = .atomic) (h : s.cur.toNat < s.cfg.cap)
    (code : Data16) : convDone code s = { s.writeCell s.cur.toNat code with cur := s.cur + 1 } := by
  obtain ⟨-, -, hdone⟩ | ⟨-, hsplit, -⟩ | ⟨hge, -⟩ := convDone_cases code s
  · exact hdone
  · cases ha.symm.trans hsplit
  · omega

theorem exec_convDone {s : State} (hfault : s.fault = none) (hpend : s.convPend = none) (code : Data16) :
    exec (.convDone code) s = .next (convDone code s) :=
  exec_ready (i := .convDone code) (readiness_converter hfault hpend)

/-- Settles O27: the two outcomes of an atomic conversion, split by whether the cursor is below capacity. -/
theorem conversionStoresAtCursor : Obligations.ConversionStoresAtCursor := by
  intro s code hatomic hfault hpend
  refine ⟨decodeFrom_convDoneWord s.cfg.cap code, ?_⟩
  rw [exec_convDone hfault hpend]
  split
  · next hlt =>
    rw [convDone_atomic hatomic hlt]
    exact ⟨_, rfl, rfl, cursor_advance_toNat hlt, Memory.read_write s.buf s.cur.toNat code⟩
  · next hge => rw [convDone_discards hge]

end Machine
end Sys2Proof
end

section
/-! PROOFS. The acquisition configuration (42_configuration.md): the words of the host's three writes (R130 to R132), and
the commit that derives `CP` (R133, R134). -/

namespace Sys2Proof

/-! ### The words of the host's writes -/

theorem decodeFrom_wrItWord (cap : Nat) (v : Data16) : decodeFrom cap .host (halves 0x4000 v) = .ok (.wrIt v) :=
  decodeFrom_ok.mpr ⟨decode_writeWord_it cap v, rfl⟩

theorem decodeFrom_wrHlevelWord (cap : Nat) (v : Byte) :
    decodeFrom cap .host (halves 0x4001 (levelData v)) = .ok (.wrHlevel v) :=
  decodeFrom_ok.mpr ⟨(decode_writeWord_level cap v).left, rfl⟩

theorem decodeFrom_wrVlevelWord (cap : Nat) (v : Byte) :
    decodeFrom cap .host (halves 0x4002 (levelData v)) = .ok (.wrVlevel v) :=
  decodeFrom_ok.mpr ⟨(decode_writeWord_level cap v).right, rfl⟩

namespace Machine

/-- Settles O32: the host has a step, so each write that its word decodes to has its effect. -/
theorem hostWritesStore : Obligations.HostWritesStore := by
  intro s hfault hpend hstale
  have hready := readiness_host hfault hpend hstale
  exact ⟨fun v => ⟨decodeFrom_wrItWord _ v, exec_ready (i := .wrIt v) hready⟩,
    fun v => ⟨decodeFrom_wrHlevelWord _ v, exec_ready (i := .wrHlevel v) hready⟩,
    fun v => ⟨decodeFrom_wrVlevelWord _ v, exec_ready (i := .wrVlevel v) hready⟩⟩

/-! ### The commit -/

/-- The clear period as a number: the quotient is taken on unbounded naturals and only then truncated (R133). -/
theorem clearPeriod_toNat (c : Config) (it : Nat) :
    (clearPeriod c it).toNat = (c.constMinPeriod / (it * c.tickUnit) + 1) % 2 ^ 16 :=
  BitVec.toNat_ofNat _ _

/-- Where `CP_COMMIT` is enabled, it is the host's only step (R134). -/
theorem readiness_host_awaitsCommit {s : State} (hfault : s.fault = none) (hpend : s.convPend = none)
    (hstale : s.stale = true) : readiness .host s = .awaitsCommit := by
  simp [readiness, hfault, hpend, hstale]

/-- A turn of `CP_COMMIT` at which it is enabled is the commit. -/
theorem step_commit {s : State} {rest : List Turn} (hin : s.inputs = .commit :: rest)
    (hready : readiness .host s = .awaitsCommit) : step s = .next (cpCommit (s.setInputs rest)) := by
  have hfetch : fetch s = .settled (commitTurn rest s) := by simp only [fetch, hin]
  rw [step_settled hfetch]
  simp only [commitTurn, hready]

/-- A commit with `IT` at least 1 derives `CP`, programs the AFE and is no longer pending (R134). -/
theorem cpCommit_of_it_ne_zero {s : State} (hit : s.it ≠ 0) : cpCommit s =
    { s with cp := clearPeriod s.cfg s.it.toNat, afe := s.vl, stale := false, trace := s.trace ++ [.afeSet s.vl] } := by
  obtain ⟨hzero, -⟩ | ⟨-, hcommit⟩ := cpCommit_cases s
  · exact absurd hzero hit
  · exact hcommit

/-- Settles O33: the turn is an enabled commit with `IT` at least 1, and the period that it derives is `clearPeriod`. -/
theorem commitDerivesClearPeriod : Obligations.CommitDerivesClearPeriod := by
  intro s rest hin hfault hpend hstale hit
  refine ⟨clearPeriod s.cfg s.it.toNat, clearPeriod_toNat _ _, ?_⟩
  rw [step_commit hin (readiness_host_awaitsCommit hfault hpend hstale),
    cpCommit_of_it_ne_zero (s := s.setInputs rest) hit]
  rfl

end Machine
end Sys2Proof
end

section
/-! PROOFS. The host's reads (43_register_reads.md): the nine register reads by their words (R145 to R153), and the sample
read of a written and of an unwritten cell (R154). -/

namespace Sys2Proof

/-! ### The words of the reads -/

theorem decodeFrom_readWord (cap : Nat) (r : Machine.Reg) :
    decodeFrom cap .host (0x8#4 ++ r.index ++ 0x0000#16) = .ok r.readInstr :=
  decodeFrom_ok.mpr ⟨Machine.decode_readWord cap r, Machine.issuer_readInstr r⟩

/-- A word with bits [31:16] 0xC000 is `RD_SAMPLE` of its bits [15:0], every index below the capacity (R75). -/
theorem decode_rdSampleWord {cap : Nat} {i : Data16} (h : i.toNat < cap) :
    decode cap (halves 0xC000 i) = .ok (.rdSample i) := by
  have hhigh : (halves 0xC000 i).toNat / 2 ^ 16 = 0xC000 := halves_toNat_div _ _
  have hclass : (halves 0xC000 i).toNat / 2 ^ 30 = 3 := by omega
  rw [decode_class, hclass, if_neg (by decide), if_neg (by decide), if_neg (by decide),
    decodeSampleRead_num _ cap hclass, if_neg (not_not.mpr hhigh), halves_toNat_mod, if_neg (Nat.not_le.mpr h),
    dataField_halves]

theorem decodeFrom_rdSampleWord {cap : Nat} {i : Data16} (h : i.toNat < cap) :
    decodeFrom cap .host (halves 0xC000 i) = .ok (.rdSample i) :=
  decodeFrom_ok.mpr ⟨decode_rdSampleWord h, rfl⟩

namespace Machine

/-! ### Register reads -/

/-- `zext_16` of a level is the level behind eight zero bits. -/
theorem zext16_eq_append (v : Byte) : zext16 v = 0x00#8 ++ v :=
  BitVec.eq_of_toNat_eq ((zext16_toNat v).trans (levelData_toNat v).symm)

/-- A counter reads as its low 16 bits. -/
theorem ofNat16_eq_ofNat16_mod (n : Nat) : BitVec.ofNat 16 n = BitVec.ofNat 16 (n % 2 ^ 16) :=
  BitVec.eq_of_toNat_eq (by simp)

/-- STATUS is the clear line as a number. -/
theorem statusWord_eq_ofNat (s : State) : statusWord s = BitVec.ofNat 16 s.clr.toNat := by
  unfold statusWord
  cases s.clr <;> rfl

/-- Settles O37: each word is the READ word of its register's index, and each value is what that register reads as. -/
theorem registerReadsDeliver : Obligations.RegisterReadsDeliver := by
  intro s hfault hpend hstale
  have hread (r : Reg) {v : Data16} (hv : r.value s = v) :
      decodeFrom s.cfg.cap .host (0x8#4 ++ r.index ++ 0x0000#16) = .ok r.readInstr ∧
      exec r.readInstr s = .next { s with trace := s.trace ++ [.readData v] } :=
    ⟨decodeFrom_readWord _ r, hv ▸ exec_readInstr (readiness_host hfault hpend hstale) r⟩
  exact ⟨hread .it rfl, hread .hl (zext16_eq_append _), hread .vl (zext16_eq_append _), hread .cp rfl,
    hread .itc (ofNat16_eq_ofNat16_mod _), hread .cpc (ofNat16_eq_ofNat16_mod _), hread .status (statusWord_eq_ofNat s),
    hread .cur rfl, hread .afe (zext16_eq_append _)⟩

/-! ### Sample reads -/

/-- A written cell is delivered (R154). -/
theorem readSample_of_written {s : State} {i v : Data16} (hi : i.toNat < s.cfg.cap)
    (hv : s.buf.read i.toNat = some v) : readSample i s = s.emit (.readData v) := by
  obtain ⟨u, -, hu, hread⟩ | ⟨-, hnone, -⟩ | ⟨hge, -⟩ := readSample_cases i s
  · cases hu.symm.trans hv
    exact hread
  · cases hnone.symm.trans hv
  · omega

/-- An unwritten cell faults with its index (R154, R52). -/
theorem readSample_of_unwritten {s : State} {i : Data16} (hi : i.toNat < s.cfg.cap)
    (hnone : s.buf.read i.toNat = none) : readSample i s = s.raise .unwrittenRead i := by
  obtain ⟨u, -, hu, -⟩ | ⟨-, -, hread⟩ | ⟨hge, -⟩ := readSample_cases i s
  · cases hu.symm.trans hnone
  · exact hread
  · omega

theorem exec_rdSample {s : State} (h : readiness .host s = .ready) (i : Data16) :
    exec (.rdSample i) s = .next (readSample i s) :=
  exec_ready (i := .rdSample i) h

/-- Settles O38: the host has a step, so the read that the word decodes to has the outcome of its cell. -/
theorem sampleReadDeliversOrFaults : Obligations.SampleReadDeliversOrFaults := by
  intro s i hfault hpend hstale hi
  have hexec := exec_rdSample (readiness_host hfault hpend hstale) i
  exact ⟨decodeFrom_rdSampleWord hi, fun v hv => hexec.trans (congrArg _ (readSample_of_written hi hv)),
    fun hnone => hexec.trans (congrArg _ (readSample_of_unwritten hi hnone))⟩

end Machine
end Sys2Proof
end

section
/-! PROOFS. The host boundary (45_host_boundary.md): the encode's refusals (R171), the frame of a still buffer (R166 to
R168), and the payload of a SET (R172). -/

namespace Sys2Proof.Machine

/-! ### How an encode ends -/

theorem levelsUndefined_iff {hl vl : Byte} : levelsUndefined hl vl = true ↔ 4 ≤ vl.toNat ∨ 32 ≤ hl.toNat := by
  simp [levelsUndefined]

/-- An encode is refused for its levels and for nothing else, whatever the buffer holds (R171). -/
theorem encodeFrame_eq_refused_iff {cap : Nat} {m : Memory} {hl vl : Byte} {r : RefuseReason} :
    encodeFrame cap m hl vl = .refused r ↔ (4 ≤ vl.toNat ∨ 32 ≤ hl.toNat) ∧ r = .levelUndefined := by
  rw [← levelsUndefined_iff, encodeFrame]
  split
  · next hlev => simp [hlev, eq_comm]
  · next hlev => split <;> simp [hlev]

/-- At defined levels, with every consumed cell written, an encode is the packing of the consumed samples. -/
theorem encodeFrame_of_readCells {cap : Nat} {m : Memory} {hl vl : Byte} {vs : List Data16}
    (hlev : ¬(4 ≤ vl.toNat ∨ 32 ≤ hl.toNat)) (hread : readCells m (consumedIndices cap hl.toNat) = .ok vs) :
    encodeFrame cap m hl vl = .frame (packSamples vl vs) := by
  rw [← levelsUndefined_iff] at hlev
  simp only [encodeFrame, if_neg hlev, hread]

/-! ### Decimation (R166, R167) -/

/-- A consumed index is below the capacity, since `(CAP >> hl) << hl <= CAP`. -/
theorem shiftLeft_lt_of_lt_frameSamples {cap hl i : Nat} (h : i < frameSamples cap hl) : i <<< hl < cap := by
  rw [frameSamples, Nat.shiftRight_eq_div_pow] at h
  calc i <<< hl < (i + 1) * 2 ^ hl := by
        rw [Nat.shiftLeft_eq]
        exact Nat.mul_lt_mul_of_pos_right (Nat.lt_succ_self i) (Nat.two_pow_pos hl)
    _ ≤ cap := (Nat.le_div_iff_mul_le (Nat.two_pow_pos hl)).mp h

/-- From column-skip level 16 on no sample is consumed, since `CAP <= 65535`. -/
theorem consumedIndices_eq_nil {cap hl : Nat} (hcap : cap ≤ 65535) (hhl : 16 ≤ hl) : consumedIndices cap hl = [] := by
  have hpow : 2 ^ 16 ≤ 2 ^ hl := Nat.pow_le_pow_right (by decide) hhl
  have hnone : frameSamples cap hl = 0 := Nat.shiftRight_eq_zero cap hl (by omega)
  simp [consumedIndices, hnone]

/-- The samples read, by their number in the frame. -/
theorem readCells_consumedIndices {cap hl : Nat} {m : Memory} {cells : Nat → Data16}
    (h : ∀ i, i < frameSamples cap hl → m.read (i <<< hl) = some (cells i)) :
    readCells m (consumedIndices cap hl) = .ok ((List.range (frameSamples cap hl)).map cells) := by
  have hread : ∀ j ∈ consumedIndices cap hl, m.read j = some (cells (j >>> hl)) := by
    intro j hj
    obtain ⟨i, hi, rfl⟩ := List.mem_map.mp hj
    rw [Nat.shiftLeft_shiftRight, h i (List.mem_range.mp hi)]
  rw [readCells_ok (cells := fun j => cells (j >>> hl)) hread]
  simp [consumedIndices, Function.comp_def, Nat.shiftLeft_shiftRight]

/-! ### Packing (R168) -/

/-- A packed byte is the low byte of the shifted sample, as a quotient. -/
theorem packByte_eq_ofNat (s : Data16) (k : Nat) : packByte s k = BitVec.ofNat 8 (s.toNat / 2 ^ k) :=
  BitVec.eq_of_toNat_eq (by simp [packByte, Nat.shiftRight_eq_div_pow])

/-- The levels that have a packing. -/
theorem vlevel_cases {vl : Byte} (h : vl.toNat < 4) : vl = 0 ∨ vl = 1 ∨ vl = 2 ∨ vl = 3 := by
  bv_omega

/-- The packing table, by the level. -/
theorem packSample_eq {vl : Byte} (h : vl.toNat < 4) (s : Data16) :
    packSample vl s = some (if vl = 0 then [packByte s 6] else if vl = 1 then [packByte s 4]
      else if vl = 2 then [packByte s 10, packByte s 2] else [packByte s 8, packByte s 0]) := by
  obtain rfl | rfl | rfl | rfl := vlevel_cases h <;> rfl

/-- Each sample takes `bps(vl)` bytes (R166). -/
theorem packSample_length {vl : Byte} (h : vl.toNat < 4) (s : Data16) :
    ((packSample vl s).getD []).length = if vl.toNat ≤ 1 then 1 else 2 := by
  obtain rfl | rfl | rfl | rfl := vlevel_cases h <;> rfl

theorem packSamples_length {vl : Byte} (h : vl.toNat < 4) (vs : List Data16) :
    (packSamples vl vs).length = vs.length * if vl.toNat ≤ 1 then 1 else 2 := by
  simp [packSamples, List.length_flatMap, packSample_length h]

/-! ### The obligations -/

/-- Settles O46: the samples read are the consumed cells in order, and packing sends each to its row of the table. -/
theorem frameLengthAndPacking : Obligations.FrameLengthAndPacking := by
  intro cap m hl vl cells hhl hvl hcells
  have hlev : ¬(4 ≤ vl.toNat ∨ 32 ≤ hl.toNat) := by omega
  refine ⟨fun i hi => shiftLeft_lt_of_lt_frameSamples hi, _,
    encodeFrame_of_readCells hlev (readCells_consumedIndices hcells), ?_, ?_⟩
  · simp [packSamples_length hvl, frameSamples]
  · simp [packSamples, packSample_eq hvl, packByte_eq_ofNat, frameSamples, List.flatMap_map]

/-- Settles O47: refused exactly where a level is undefined; from `hl = 16` on there is nothing to read. -/
theorem undefinedLevelsRefused : Obligations.UndefinedLevelsRefused := by
  intro cap m hl vl
  split
  · next hlev => exact encodeFrame_eq_refused_iff.mpr ⟨hlev, rfl⟩
  · next hlev =>
    refine ⟨fun r hr => hlev (encodeFrame_eq_refused_iff.mp hr).left, fun hhl hcap => ?_⟩
    exact encodeFrame_of_readCells hlev (vs := []) (by rw [consumedIndices_eq_nil hcap hhl]; rfl)

/-- Settles O49: the first two bytes, appended, are the number with the first as its high byte. -/
theorem setPayloadHighByteFirst : Obligations.SetPayloadHighByteFirst := by
  intro p0 p1 p2 p3
  have htime : (p0 ++ p1).toNat = p0.toNat * 2 ^ 8 + p1.toNat := by
    rw [BitVec.toNat_append, ← Nat.shiftLeft_add_eq_or_of_lt p1.isLt, Nat.shiftLeft_eq]
  exact ⟨htime, rfl, rfl⟩

end Sys2Proof.Machine
end

section
/-! PROOFS. Faults (60_exceptions.md): the one word of the reset source, and that a faulted block has no step but `RESET`
(R194). -/

namespace Sys2Proof

/-- The one word of `RESET` is its event number and zeros (R72). -/
theorem decode_eq_reset_iff {cap : Nat} {w : OpWord} : decode cap w = .ok .reset ↔ w = 0x02000000 := by
  constructor
  · intro h
    obtain ⟨hissuer, -⟩ | ⟨hissuer, -⟩ | ⟨-, hevent⟩ | ⟨hissuer, -⟩ := issuer_of_decode h
    case inr.inr.inl =>
      have hclass : w.toNat / 2 ^ 30 = 0 := by omega
      rw [decode_class, if_pos hclass, decodeEvent_num w hclass] at h
      split_ifs at h with htick hconv hreset <;> cases h
      exact BitVec.eq_of_toNat_eq (show w.toNat = 0x02000000 by omega)
    all_goals cases hissuer
  · rintro rfl
    rfl

/-- `RESET` is the one operation of the reset source (R81). -/
theorem Instr.issuer_eq_resetSource_iff {i : Instr} : i.issuer = .resetSource ↔ i = .reset := by
  cases i <;> simp [Instr.issuer]

namespace Machine

/-- In a faulted block the reset source, and no other agent, has a step (R189). -/
theorem eq_resetSource_of_ready {s : State} {a : Agent} (hfault : s.fault ≠ none) (hready : readiness a s = .ready) :
    a = .resetSource := by
  by_contra ha
  cases hready.symm.trans (readiness_halted hfault ha)

/-- Settles O16: an operation that runs is of the reset source, hence `RESET`; the micro-steps are not enabled; what is left
marks a refused word or passes. -/
theorem onlyResetLeavesFault : Obligations.OnlyResetLeavesFault := by
  intro s t hfault h
  obtain ⟨a, w, rest, i, hin, hready, hdec, hissuer, rfl⟩ | ⟨a, w, rest, r, -, -, -, rfl⟩ | ⟨rest, hnone, -⟩ |
    ⟨rest, hnone, -⟩ | ⟨rest, rfl, -⟩ := step_cases h
  · obtain rfl := eq_resetSource_of_ready hfault hready
    obtain rfl := Instr.issuer_eq_resetSource_iff.mp hissuer
    obtain rfl := decode_eq_reset_iff.mp hdec
    exact .inl ⟨rest, hin, rfl⟩
  · exact .inr rfl
  · exact absurd hnone hfault
  · exact absurd hnone hfault
  · exact .inr rfl

end Machine
end Sys2Proof
end

section
/-! PROOFS. The encoding round trip (30_encoding.md R72 to R80): the word of every operation that a word can carry, the
operation of every word that decodes, and the opcode map's match and mask against both. -/

namespace Sys2Proof

/-! ### From an operation to its word and back -/

/-- The decoder inverts the layouts (R72 to R76, R80). -/
theorem decode_encode {cap : Nat} {i : Instr} (h : i.wellFormed cap = true) : decode cap i.encode = .ok i := by
  cases i with
  | convDone code => exact decode_convDoneWord cap code
  | wrIt v => exact decode_writeWord_it cap v
  | wrHlevel v => exact (decode_writeWord_level cap v).left
  | wrVlevel v => exact (decode_writeWord_level cap v).right
  | rdSample i => exact decode_rdSampleWord (of_decide_eq_true h)
  | tick | reset => rfl
  | rdIt | rdHlevel | rdVlevel | rdCp | rdItc | rdCpc | rdStatus | rdCur | rdAfe => rfl

/-- Settles O1: the decoder inverts each layout. -/
theorem decodeOfEncode : Obligations.DecodeOfEncode := fun _ _ => decode_encode

/-- Settles O8: each of the words is the word of its operation. -/
theorem spelledWordsDecode : Obligations.SpelledWordsDecode := by
  intro cap hcap
  exact ⟨decode_encode (i := .tick) rfl, decode_encode (i := .convDone 0xFFFF) rfl, decode_encode (i := .reset) rfl,
    decode_encode (i := .wrIt 0x1234) rfl, decode_encode (i := .wrHlevel 0xFF) rfl,
    decode_encode (i := .wrVlevel 3) rfl, decode_encode (i := .rdStatus) rfl,
    decode_encode (i := .rdSample 3) (decide_eq_true hcap)⟩

/-! ### From a word to its operation and back -/

variable {cap : Nat} {w : OpWord} {i : Instr}

/-- A word is its two halves. -/
theorem halves_eq_of_toNat {a b : Data16} (ha : a.toNat = w.toNat / 2 ^ 16) (hb : b.toNat = w.toNat % 2 ^ 16) :
    halves a b = w := by
  apply BitVec.eq_of_toNat_eq
  rw [halves_toNat, ha, hb, Nat.div_add_mod']

/-- A word is its high half and its `DATA`. -/
theorem halves_dataField {a : Data16} (ha : a.toNat = w.toNat / 2 ^ 16) : halves a (dataField w) = w :=
  halves_eq_of_toNat ha (dataField_toNat w)

/-- A word whose bits [15:8] are 0 is its high half and a level. -/
theorem halves_levelData_dataLow {a : Data16} (ha : a.toNat = w.toNat / 2 ^ 16) (h : w.toNat / 2 ^ 8 % 2 ^ 8 = 0) :
    halves a (levelData (dataLow w)) = w :=
  halves_eq_of_toNat ha (by rw [levelData_toNat, dataLow_toNat]; omega)

/-- A word whose bits [15:0] are 0 is its high half and zeros. -/
theorem halves_zero {a : Data16} (ha : a.toNat = w.toNat / 2 ^ 16) (h : w.toNat % 2 ^ 16 = 0) : halves a 0x0000 = w :=
  halves_eq_of_toNat ha h.symm

theorem encode_of_decodeEvent (hc : w.toNat / 2 ^ 30 = 0) (h : decodeEvent w = .ok i) :
    i.encode = w ∧ i.wellFormed cap = true := by
  rw [decodeEvent_num w hc] at h
  split_ifs at h with htick hconv hreset <;> cases h
  · exact ⟨halves_zero htick.left.symm htick.right, rfl⟩
  · exact ⟨halves_dataField hconv.symm, rfl⟩
  · exact ⟨halves_zero hreset.left.symm hreset.right, rfl⟩

theorem encode_of_decodeWrite (hc : w.toNat / 2 ^ 30 = 1) (h : decodeWrite w = .ok i) :
    i.encode = w ∧ i.wellFormed cap = true := by
  rw [decodeWrite_num w hc] at h
  split_ifs at h with hit hhl hvl hro <;> cases h
  · exact ⟨halves_dataField hit.symm, rfl⟩
  · exact ⟨halves_levelData_dataLow hhl.left.symm hhl.right, rfl⟩
  · exact ⟨halves_levelData_dataLow hvl.left.symm hvl.right, rfl⟩

theorem encode_of_decodeRead (hc : w.toNat / 2 ^ 30 = 2) (h : decodeRead w = .ok i) :
    i.encode = w ∧ i.wellFormed cap = true := by
  rw [decodeRead_num w hc] at h
  split_ifs at h with hdata
  all_goals cases h
  all_goals exact ⟨halves_zero (Eq.symm ‹_›) (not_not.mp hdata), rfl⟩

theorem encode_of_decodeSampleRead (hc : w.toNat / 2 ^ 30 = 3) (h : decodeSampleRead cap w = .ok i) :
    i.encode = w ∧ i.wellFormed cap = true := by
  rw [decodeSampleRead_num w cap hc] at h
  split_ifs at h with hhigh hidx
  cases h
  refine ⟨halves_dataField (not_not.mp hhigh).symm, decide_eq_true ?_⟩
  rw [dataField_toNat]
  exact Nat.not_le.mp hidx

/-- No bit of a word that decodes is ignored (R77, R80). -/
theorem encode_of_decode (h : decode cap w = .ok i) : i.encode = w ∧ i.wellFormed cap = true := by
  have hlt := w.isLt
  rw [decode_class] at h
  split_ifs at h with hevent hwrite hread
  · exact encode_of_decodeEvent hevent h
  · exact encode_of_decodeWrite hwrite h
  · exact encode_of_decodeRead hread h
  · exact encode_of_decodeSampleRead (by omega) h

/-- Settles O2: class by class, each field of the word is one that the operation's layout writes. -/
theorem encodeOfDecode : Obligations.EncodeOfDecode := fun _ _ _ => encode_of_decode

/-! ### The opcode map -/

/-- A word that two rows accept makes their patterns agree where both masks look. -/
theorem pattern_and_mask_of_accepts {a b : OpcodeRow} (ha : a.accepts w = true) (hb : b.accepts w = true) :
    a.pattern &&& b.mask = b.pattern &&& a.mask := by
  rw [← beq_iff_eq.mp ha, ← beq_iff_eq.mp hb, BitVec.and_assoc, BitVec.and_assoc, BitVec.and_comm a.mask]

/-- Any two patterns of the map differ in a bit that both masks look at. -/
theorem opcodeTable_patterns_differ :
    opcodeTable.Pairwise fun a b => a.pattern &&& b.mask ≠ b.pattern &&& a.mask := by decide

/-- Settles O3: two patterns differ where both masks look. -/
theorem opcodeRowsDisjoint : Obligations.OpcodeRowsDisjoint :=
  opcodeTable_patterns_differ.imp fun hne _ ⟨ha, hb⟩ => hne (pattern_and_mask_of_accepts ha hb)

/-- The row of an operation accepts the operation's word. -/
theorem exists_row_accepts_encode (i : Instr) : Laws.OwnRow.Statement i := by
  open Laws.OwnRow in
  cases i with
  | tick => exact tick
  | convDone code => exact convDone code
  | reset => exact reset
  | wrIt v => exact wrIt v
  | wrHlevel v => exact wrHlevel v
  | wrVlevel v => exact wrVlevel v
  | rdIt => exact rdIt
  | rdHlevel => exact rdHlevel
  | rdVlevel => exact rdVlevel
  | rdCp => exact rdCp
  | rdItc => exact rdItc
  | rdCpc => exact rdCpc
  | rdStatus => exact rdStatus
  | rdCur => exact rdCur
  | rdAfe => exact rdAfe
  | rdSample i => exact rdSample i

/-- A word that a row accepts is the word of an operation of that row, whatever the capacity. -/
theorem exists_encode_of_accepts :
    ∀ row ∈ opcodeTable, row.accepts w = true → ∃ i : Instr, i.encode = w ∧ i.mnemonic = row.mnemonic := by
  have fixed {k : Nat} {j : Instr} (hj : j.encode = BitVec.ofNat 32 k) (hk : w.toNat = k) : j.encode = w := by
    rw [hj, ← hk, BitVec.ofNat_toNat, BitVec.setWidth_eq]
  rw [opcodeTable_forall]
  exact ⟨fun h => ⟨.tick, fixed rfl h, rfl⟩, fun h => ⟨.convDone (dataField w), halves_dataField h.symm, rfl⟩,
    fun h => ⟨.reset, fixed rfl h, rfl⟩, fun h => ⟨.wrIt (dataField w), halves_dataField h.symm, rfl⟩,
    fun h => ⟨.wrHlevel (dataLow w), halves_levelData_dataLow (show 0x4001 = _ by omega) (by omega), rfl⟩,
    fun h => ⟨.wrVlevel (dataLow w), halves_levelData_dataLow (show 0x4002 = _ by omega) (by omega), rfl⟩,
    fun h => ⟨.rdIt, fixed rfl h, rfl⟩, fun h => ⟨.rdHlevel, fixed rfl h, rfl⟩,
    fun h => ⟨.rdVlevel, fixed rfl h, rfl⟩, fun h => ⟨.rdCp, fixed rfl h, rfl⟩, fun h => ⟨.rdItc, fixed rfl h, rfl⟩,
    fun h => ⟨.rdCpc, fixed rfl h, rfl⟩, fun h => ⟨.rdStatus, fixed rfl h, rfl⟩,
    fun h => ⟨.rdCur, fixed rfl h, rfl⟩, fun h => ⟨.rdAfe, fixed rfl h, rfl⟩,
    fun h => ⟨.rdSample (dataField w), halves_dataField h.symm, rfl⟩⟩

/-- The one operand restriction is that of `RD_SAMPLE` (R75, R78). -/
theorem Instr.wellFormed_of_not_sampleRead (h : ¬(i.mnemonic = .rdSample ∧ cap ≤ i.encode.toNat % 65536)) :
    i.wellFormed cap = true := by
  cases i with
  | rdSample j =>
    refine decide_eq_true (Nat.not_le.mp fun hle => h ⟨rfl, ?_⟩)
    exact (halves_toNat_mod 0xC000 j).symm ▸ hle
  | _ => rfl

/-- The word of a `RD_SAMPLE` is of class SAMPLE_READ (R75). -/
theorem encode_toNat_div_of_rdSample (h : i.mnemonic = .rdSample) : i.encode.toNat / 2 ^ 16 = 0xC000 := by
  cases i <;> cases h
  exact halves_toNat_div _ _

/-- Settles O4: both ways the word is that of an operation, whose row accepts it, and which the decoder gives back unless its
index is out of range. -/
theorem decoderAgreesWithOpcodeMap : Obligations.DecoderAgreesWithOpcodeMap := by
  intro cap w
  refine ⟨fun i h => ?_, fun row hrow haccepts => ?_⟩
  · obtain ⟨rfl, -⟩ := encode_of_decode h
    exact exists_row_accepts_encode i
  · obtain ⟨i, rfl, hrow⟩ := exists_encode_of_accepts row hrow haccepts
    rw [← hrow]
    split
    · next h => exact decode_sampleRead_outOfRange (encode_toNat_div_of_rdSample h.left) h.right
    · next h => exact ⟨i, decode_encode (Instr.wellFormed_of_not_sampleRead h), rfl⟩

end Sys2Proof
end

section
/-! PROOFS. Frames: what a tick, a conversion, a sample read and the two micro-steps leave as it is, field by field, and from
these which operations write each piece of state (20_memory.md R66). -/

namespace Sys2Proof.Machine

variable (s : State)

@[simp] theorem tick_cfg : (tick s).cfg = s.cfg := (congrArg State.cfg (tick_frame s) :)
@[simp] theorem tick_it : (tick s).it = s.it := (congrArg State.it (tick_frame s) :)
@[simp] theorem tick_hl : (tick s).hl = s.hl := (congrArg State.hl (tick_frame s) :)
@[simp] theorem tick_vl : (tick s).vl = s.vl := (congrArg State.vl (tick_frame s) :)
@[simp] theorem tick_cp : (tick s).cp = s.cp := (congrArg State.cp (tick_frame s) :)
@[simp] theorem tick_afe : (tick s).afe = s.afe := (congrArg State.afe (tick_frame s) :)
@[simp] theorem tick_buf : (tick s).buf = s.buf := (congrArg State.buf (tick_frame s) :)
@[simp] theorem tick_stale : (tick s).stale = s.stale := (congrArg State.stale (tick_frame s) :)
@[simp] theorem tick_convPend : (tick s).convPend = s.convPend := (congrArg State.convPend (tick_frame s) :)
@[simp] theorem tick_fault : (tick s).fault = s.fault := (congrArg State.fault (tick_frame s) :)
@[simp] theorem tick_refusals : (tick s).refusals = s.refusals := (congrArg State.refusals (tick_frame s) :)
@[simp] theorem tick_inputs : (tick s).inputs = s.inputs := (congrArg State.inputs (tick_frame s) :)
@[simp] theorem tick_draws : (tick s).draws = s.draws := (congrArg State.draws (tick_frame s) :)

/-- A conversion writes the buffer, the cursor and the conversion in flight. -/
theorem convDone_frame (code : Data16) : convDone code s =
    { s with buf := (convDone code s).buf, cur := (convDone code s).cur, convPend := (convDone code s).convPend } := by
  obtain ⟨-, -, h⟩ | ⟨-, -, h⟩ | ⟨-, h⟩ := convDone_cases code s <;> rw [h] <;> rfl

@[simp] theorem convDone_cfg (code : Data16) : (convDone code s).cfg = s.cfg :=
  (congrArg State.cfg (convDone_frame s code) :)
@[simp] theorem convDone_it (code : Data16) : (convDone code s).it = s.it :=
  (congrArg State.it (convDone_frame s code) :)
@[simp] theorem convDone_hl (code : Data16) : (convDone code s).hl = s.hl :=
  (congrArg State.hl (convDone_frame s code) :)
@[simp] theorem convDone_vl (code : Data16) : (convDone code s).vl = s.vl :=
  (congrArg State.vl (convDone_frame s code) :)
@[simp] theorem convDone_cp (code : Data16) : (convDone code s).cp = s.cp :=
  (congrArg State.cp (convDone_frame s code) :)
@[simp] theorem convDone_itc (code : Data16) : (convDone code s).itc = s.itc :=
  (congrArg State.itc (convDone_frame s code) :)
@[simp] theorem convDone_cpc (code : Data16) : (convDone code s).cpc = s.cpc :=
  (congrArg State.cpc (convDone_frame s code) :)
@[simp] theorem convDone_clr (code : Data16) : (convDone code s).clr = s.clr :=
  (congrArg State.clr (convDone_frame s code) :)
@[simp] theorem convDone_afe (code : Data16) : (convDone code s).afe = s.afe :=
  (congrArg State.afe (convDone_frame s code) :)
@[simp] theorem convDone_stale (code : Data16) : (convDone code s).stale = s.stale :=
  (congrArg State.stale (convDone_frame s code) :)
@[simp] theorem convDone_fault (code : Data16) : (convDone code s).fault = s.fault :=
  (congrArg State.fault (convDone_frame s code) :)
@[simp] theorem convDone_refusals (code : Data16) : (convDone code s).refusals = s.refusals :=
  (congrArg State.refusals (convDone_frame s code) :)
@[simp] theorem convDone_trace (code : Data16) : (convDone code s).trace = s.trace :=
  (congrArg State.trace (convDone_frame s code) :)
@[simp] theorem convDone_inputs (code : Data16) : (convDone code s).inputs = s.inputs :=
  (congrArg State.inputs (convDone_frame s code) :)
@[simp] theorem convDone_draws (code : Data16) : (convDone code s).draws = s.draws :=
  (congrArg State.draws (convDone_frame s code) :)

/-- A sample read writes the trace, the fault, or (on an index that no word carries) the marks. -/
theorem readSample_frame (i : Data16) : readSample i s =
    { s with fault := (readSample i s).fault, refusals := (readSample i s).refusals
             trace := (readSample i s).trace } := by
  obtain ⟨v, -, -, h⟩ | ⟨-, -, h⟩ | ⟨-, h⟩ := readSample_cases i s <;> rw [h] <;> rfl

@[simp] theorem readSample_cfg (i : Data16) : (readSample i s).cfg = s.cfg :=
  (congrArg State.cfg (readSample_frame s i) :)
@[simp] theorem readSample_it (i : Data16) : (readSample i s).it = s.it := (congrArg State.it (readSample_frame s i) :)
@[simp] theorem readSample_hl (i : Data16) : (readSample i s).hl = s.hl := (congrArg State.hl (readSample_frame s i) :)
@[simp] theorem readSample_vl (i : Data16) : (readSample i s).vl = s.vl := (congrArg State.vl (readSample_frame s i) :)
@[simp] theorem readSample_cp (i : Data16) : (readSample i s).cp = s.cp := (congrArg State.cp (readSample_frame s i) :)
@[simp] theorem readSample_itc (i : Data16) : (readSample i s).itc = s.itc :=
  (congrArg State.itc (readSample_frame s i) :)
@[simp] theorem readSample_cpc (i : Data16) : (readSample i s).cpc = s.cpc :=
  (congrArg State.cpc (readSample_frame s i) :)
@[simp] theorem readSample_clr (i : Data16) : (readSample i s).clr = s.clr :=
  (congrArg State.clr (readSample_frame s i) :)
@[simp] theorem readSample_cur (i : Data16) : (readSample i s).cur = s.cur :=
  (congrArg State.cur (readSample_frame s i) :)
@[simp] theorem readSample_afe (i : Data16) : (readSample i s).afe = s.afe :=
  (congrArg State.afe (readSample_frame s i) :)
@[simp] theorem readSample_buf (i : Data16) : (readSample i s).buf = s.buf :=
  (congrArg State.buf (readSample_frame s i) :)
@[simp] theorem readSample_stale (i : Data16) : (readSample i s).stale = s.stale :=
  (congrArg State.stale (readSample_frame s i) :)
@[simp] theorem readSample_convPend (i : Data16) : (readSample i s).convPend = s.convPend :=
  (congrArg State.convPend (readSample_frame s i) :)
@[simp] theorem readSample_inputs (i : Data16) : (readSample i s).inputs = s.inputs :=
  (congrArg State.inputs (readSample_frame s i) :)
@[simp] theorem readSample_draws (i : Data16) : (readSample i s).draws = s.draws :=
  (congrArg State.draws (readSample_frame s i) :)

/-- `CONV_ADVANCE` writes the cursor, the conversion in flight and the draw counter. -/
theorem convAdvance_frame : convAdvance s =
    { s with cur := (convAdvance s).cur, convPend := (convAdvance s).convPend, draws := (convAdvance s).draws } := by
  obtain ⟨-, h⟩ | ⟨c, cur, -, -, h⟩ := convAdvance_cases s <;> rw [h]

@[simp] theorem convAdvance_cfg : (convAdvance s).cfg = s.cfg := (congrArg State.cfg (convAdvance_frame s) :)
@[simp] theorem convAdvance_it : (convAdvance s).it = s.it := (congrArg State.it (convAdvance_frame s) :)
@[simp] theorem convAdvance_hl : (convAdvance s).hl = s.hl := (congrArg State.hl (convAdvance_frame s) :)
@[simp] theorem convAdvance_vl : (convAdvance s).vl = s.vl := (congrArg State.vl (convAdvance_frame s) :)
@[simp] theorem convAdvance_cp : (convAdvance s).cp = s.cp := (congrArg State.cp (convAdvance_frame s) :)
@[simp] theorem convAdvance_itc : (convAdvance s).itc = s.itc := (congrArg State.itc (convAdvance_frame s) :)
@[simp] theorem convAdvance_cpc : (convAdvance s).cpc = s.cpc := (congrArg State.cpc (convAdvance_frame s) :)
@[simp] theorem convAdvance_clr : (convAdvance s).clr = s.clr := (congrArg State.clr (convAdvance_frame s) :)
@[simp] theorem convAdvance_afe : (convAdvance s).afe = s.afe := (congrArg State.afe (convAdvance_frame s) :)
@[simp] theorem convAdvance_buf : (convAdvance s).buf = s.buf := (congrArg State.buf (convAdvance_frame s) :)
@[simp] theorem convAdvance_stale : (convAdvance s).stale = s.stale := (congrArg State.stale (convAdvance_frame s) :)
@[simp] theorem convAdvance_fault : (convAdvance s).fault = s.fault := (congrArg State.fault (convAdvance_frame s) :)
@[simp] theorem convAdvance_refusals : (convAdvance s).refusals = s.refusals :=
  (congrArg State.refusals (convAdvance_frame s) :)
@[simp] theorem convAdvance_inputs : (convAdvance s).inputs = s.inputs :=
  (congrArg State.inputs (convAdvance_frame s) :)

/-- `CP_COMMIT` writes `CP`, `AFE`, `STALE` and the trace, or the fault. -/
theorem cpCommit_frame : cpCommit s =
    { s with cp := (cpCommit s).cp, afe := (cpCommit s).afe, stale := (cpCommit s).stale, fault := (cpCommit s).fault
             trace := (cpCommit s).trace } := by
  obtain ⟨-, h⟩ | ⟨-, h⟩ := cpCommit_cases s
  · rw [h, State.raise]
  · rw [h]

@[simp] theorem cpCommit_cfg : (cpCommit s).cfg = s.cfg := (congrArg State.cfg (cpCommit_frame s) :)
@[simp] theorem cpCommit_it : (cpCommit s).it = s.it := (congrArg State.it (cpCommit_frame s) :)
@[simp] theorem cpCommit_hl : (cpCommit s).hl = s.hl := (congrArg State.hl (cpCommit_frame s) :)
@[simp] theorem cpCommit_vl : (cpCommit s).vl = s.vl := (congrArg State.vl (cpCommit_frame s) :)
@[simp] theorem cpCommit_itc : (cpCommit s).itc = s.itc := (congrArg State.itc (cpCommit_frame s) :)
@[simp] theorem cpCommit_cpc : (cpCommit s).cpc = s.cpc := (congrArg State.cpc (cpCommit_frame s) :)
@[simp] theorem cpCommit_clr : (cpCommit s).clr = s.clr := (congrArg State.clr (cpCommit_frame s) :)
@[simp] theorem cpCommit_cur : (cpCommit s).cur = s.cur := (congrArg State.cur (cpCommit_frame s) :)
@[simp] theorem cpCommit_buf : (cpCommit s).buf = s.buf := (congrArg State.buf (cpCommit_frame s) :)
@[simp] theorem cpCommit_convPend : (cpCommit s).convPend = s.convPend := (congrArg State.convPend (cpCommit_frame s) :)
@[simp] theorem cpCommit_refusals : (cpCommit s).refusals = s.refusals := (congrArg State.refusals (cpCommit_frame s) :)
@[simp] theorem cpCommit_inputs : (cpCommit s).inputs = s.inputs := (congrArg State.inputs (cpCommit_frame s) :)
@[simp] theorem cpCommit_draws : (cpCommit s).draws = s.draws := (congrArg State.draws (cpCommit_frame s) :)

variable {s}

/-- A sample read by a word that decodes sets no mark. -/
theorem readSample_refusals_of_lt {i : Data16} (h : i.toNat < s.cfg.cap) :
    (readSample i s).refusals = s.refusals := by
  obtain ⟨v, -, -, hread⟩ | ⟨-, -, hread⟩ | ⟨hge, -⟩ := readSample_cases i s
  · rw [hread, State.emit_refusals]
  · rw [hread, State.raise_refusals]
  · omega

end Sys2Proof.Machine
end

section
/-! PROOFS. Which operations write each piece of state (20_memory.md R66), and two values that operations do not depend on: a
repeated read (43_register_reads.md R155) and the level `HL` (10_state.md R23). -/

namespace Sys2Proof.Machine

variable {s : State} {i : Instr}

/-! ### Ownership -/

theorem effect_it_stale (hr : i ≠ .reset) (hw : ∀ v, i ≠ .wrIt v) :
    (effect i s).it = s.it ∧ (effect i s).stale = s.stale := by
  cases i <;> simp_all [effect, readRegister]

theorem effect_hl (hr : i ≠ .reset) (hw : ∀ v, i ≠ .wrHlevel v) : (effect i s).hl = s.hl := by
  cases i <;> simp_all [effect, readRegister]

theorem effect_vl (hr : i ≠ .reset) (hw : ∀ v, i ≠ .wrVlevel v) : (effect i s).vl = s.vl := by
  cases i <;> simp_all [effect, readRegister]

theorem effect_cp_afe (hr : i ≠ .reset) : (effect i s).cp = s.cp ∧ (effect i s).afe = s.afe := by
  cases i <;> simp_all [effect, readRegister]

theorem effect_counters (hr : i ≠ .reset) (ht : i ≠ .tick) :
    (effect i s).itc = s.itc ∧ (effect i s).cpc = s.cpc ∧ (effect i s).clr = s.clr := by
  cases i <;> simp_all [effect, readRegister]

theorem effect_cur (hr : i ≠ .reset) (ht : i ≠ .tick) (hc : ∀ c, i ≠ .convDone c) : (effect i s).cur = s.cur := by
  cases i <;> simp_all [effect, readRegister]

theorem effect_buf_convPend (hr : i ≠ .reset) (hc : ∀ c, i ≠ .convDone c) :
    (effect i s).buf = s.buf ∧ (effect i s).convPend = s.convPend := by
  cases i <;> simp_all [effect, readRegister]

theorem effect_fault (hr : i ≠ .reset) (hj : ∀ j, i ≠ .rdSample j) : (effect i s).fault = s.fault := by
  cases i <;> simp_all [effect, readRegister]

theorem effect_refusals (h : i.wellFormed s.cfg.cap = true) : (effect i s).refusals = s.refusals := by
  cases i with
  | rdSample j => exact readSample_refusals_of_lt (of_decide_eq_true h)
  | _ => simp [effect, readRegister, resetBlock]

/-- Parameters, schedule and draw counter are no operation's to write. -/
theorem effect_cfg_inputs_draws (i : Instr) (s : State) :
    (effect i s).cfg = s.cfg ∧ (effect i s).inputs = s.inputs ∧ (effect i s).draws = s.draws := by
  cases i <;> simp [effect, readRegister, resetBlock]

/-- Settles O42: a held operation writes nothing, and an effect writes what its operation owns. -/
theorem operationsWriteOnlyTheirState : Obligations.OperationsWriteOnlyTheirState := by
  intro s t i h
  obtain ⟨-, rfl⟩ | ⟨-, rfl⟩ := exec_next h
  · refine ⟨effect_it_stale, effect_hl, effect_vl, effect_cp_afe, effect_counters, effect_cur, fun hr hc => ?_,
      effect_fault, effect_refusals, effect_cfg_inputs_draws i s⟩
    obtain ⟨hbuf, hpend⟩ := effect_buf_convPend (s := s) hr hc
    exact ⟨fun j => by rw [hbuf], hpend⟩
  · simp

/-! ### Repeated reads (R155) -/

/-- A delivered value is no part of what a register reads as. -/
theorem Reg.value_emit (r : Reg) (o : Output) (s : State) : r.value (s.emit o) = r.value s := by
  cases r <;> rfl

/-- Settles O39: the first read leaves what the second reads. -/
theorem repeatedReadsAgree : Obligations.RepeatedReadsAgree := by
  intro s r hfault hpend hstale
  let first := s.emit (.readData (r.value s))
  have hfirst : exec r.readInstr s = .next first := exec_readInstr (readiness_host hfault hpend hstale) r
  have hsecond : exec r.readInstr first = .next (first.emit (.readData (r.value first))) :=
    exec_readInstr (readiness_host (s := first) hfault hpend hstale) r
  have hvalue : r.value first = r.value s := r.value_emit _ s
  refine ⟨r.value s, first.emit (.readData (r.value s)), ?_, ?_⟩
  · simp only [runOps, hfirst, hsecond, hvalue]
  · simp [first, State.emit]

/-! ### `HL` (R23) -/

/-- A tick commutes with every change of `STALE`, `HL`, `VL`, `AFE` and the buffer. -/
theorem tick_of_untimed (s : State) (stale : Bool) (hl vl afe : Byte) (buf : Memory) :
    tick { s with stale := stale, hl := hl, vl := vl, afe := afe, buf := buf } =
      { tick s with stale := stale, hl := hl, vl := vl, afe := afe, buf := buf } := by
  simp only [tick, clearAssertTest_eq, shiftRollover_eq, clearCycleEnd_eq, countTick]

/-- No agent's hold depends on `HL`. -/
theorem readiness_withHl (a : Agent) (s : State) (h : Byte) : readiness a { s with hl := h } = readiness a s := by
  cases a <;> rfl

/-- An operation that does not name `HL` commutes with every change of it. -/
theorem effect_withHl (hr : i ≠ .rdHlevel) (hw : ∀ v, i ≠ .wrHlevel v) (hreset : i ≠ .reset) (h : Byte) :
    effect i { s with hl := h } = { effect i s with hl := h } := by
  cases i with
  | tick => simpa [effect] using tick_of_untimed s s.stale h s.vl s.afe s.buf
  | convDone code =>
    simp only [effect, convDone]
    split
    · cases s.cfg.eventAtomicity <;> rfl
    · rfl
  | rdSample j =>
    simp only [effect, readSample]
    split
    · cases s.buf.read j.toNat <;> rfl
    · rfl
  | rdHlevel | reset => contradiction
  | wrHlevel v => exact absurd rfl (hw v)
  | _ => rfl

/-- Settles O40: the effects commute with a change of `HL`, but for the one that stores a level of its own and `RESET`, which
overwrite it. -/
theorem horizontalLevelIsNeverRead : Obligations.HorizontalLevelIsNeverRead := by
  intro s t i h hexec
  have hready := readiness_withHl i.issuer s h
  refine ⟨fun hr hw hreset => ?_, ?_⟩
  · obtain ⟨hi, rfl⟩ | ⟨hi, rfl⟩ := exec_next hexec
    · rw [exec_ready (hready.trans hi), effect_withHl hr hw hreset]
    · exact exec_held fun hi' => hi (hready.symm.trans hi')
  · rintro (rfl | ⟨⟨v, rfl⟩, hi⟩)
    · exact hexec
    · rw [exec_ready (i := .wrHlevel v) hi] at hexec
      rw [exec_ready (i := .wrHlevel v) (hready.trans hi), ← hexec]
      rfl

end Sys2Proof.Machine
end

section
/-! PROOFS. What one step comes to (60_exceptions.md R188, R189): words that run, words that are refused, holds, the turns of
the two micro-steps, and what every step of every state keeps. -/

namespace Sys2Proof

/-! ### The issuer of a word (R81) -/

/-- The agent that the class and event number of a word name is the issuer of the operation it decodes to. -/
theorem classIssuer_of_decode {cap : Nat} {w : OpWord} {i : Instr} (h : decode cap w = .ok i) :
    classIssuer w = i.issuer := by
  simp only [classIssuer, ne_eq, field_eq_iff, classField_toNat, eventField_toNat, BitVec.ofNat_eq_ofNat,
    BitVec.toNat_ofNat]
  obtain ⟨hi, hw⟩ | ⟨hi, hw⟩ | ⟨hi, hw⟩ | ⟨hi, hw⟩ := issuer_of_decode h
  · rw [hi, if_neg (by omega), if_neg (by omega), if_neg (by omega)]
  · rw [hi, if_neg (by omega), if_pos (by omega)]
  · rw [hi, if_neg (by omega), if_neg (by omega), if_pos (by omega)]
  · rw [hi, if_pos (by omega)]

/-- The word of every operation that a word can carry is accepted from the agent that R81 allows for it. -/
theorem decodeFrom_encode {cap : Nat} {i : Instr} (h : i.wellFormed cap = true) :
    decodeFrom cap i.issuer i.encode = .ok i :=
  decodeFrom_ok.mpr ⟨decode_encode h, rfl⟩

/-- The decoder's refusals: a word that no row accepts has one of two reasons, a sample read out of range the third. -/
theorem decode_error_mem {cap : Nat} {w : OpWord} {r : RefuseReason} (h : decode cap w = .error r) :
    r ∈ [.reservedEncoding, .writeReadOnly, .indexOutOfRange, .wrongAgent] := by
  by_cases hrows : ∀ row ∈ opcodeTable, row.accepts w = false
  · rw [decode_of_rejected cap hrows] at h
    cases h
    split <;> simp
  · push Not at hrows
    obtain ⟨row, hrow, haccepts⟩ := hrows
    obtain ⟨-, hmap⟩ := decoderAgreesWithOpcodeMap cap w
    have hanswer := hmap row hrow (by simpa using haccepts)
    split at hanswer
    · cases h.symm.trans hanswer
      simp
    · obtain ⟨i, hi, -⟩ := hanswer
      cases h.symm.trans hi

/-- R188: the four reasons for which a word is refused. -/
theorem decodeFrom_error_mem {cap : Nat} {a : Agent} {w : OpWord} {r : RefuseReason}
    (h : decodeFrom cap a w = .error r) : r ∈ [.reservedEncoding, .writeReadOnly, .indexOutOfRange, .wrongAgent] := by
  cases hd : decode cap w with
  | error r' =>
    cases h.symm.trans (decodeFrom_of_error hd a)
    exact decode_error_mem hd
  | ok i =>
    rw [decodeFrom_of_ok hd] at h
    split at h <;> cases h
    simp

namespace Machine

variable {s : State}

/-! ### Turns of an agent that has a step -/

/-- A word of an agent that has a step, and whose operation it is, runs the operation. -/
theorem step_of_decodeFrom {a : Agent} {w : OpWord} {rest : List Turn} {i : Instr}
    (hin : s.inputs = .issue a w :: rest) (hready : readiness a s = .ready)
    (hdec : decodeFrom s.cfg.cap a w = .ok i) : step s = exec i (s.setInputs rest) := by
  obtain ⟨hrun, -⟩ := step_issue hin
  exact hrun hready i hdec

/-- Settles O10: the decoded operation is the agent's, so its turn runs it. -/
theorem stepRunsDecodedInstruction : Obligations.StepRunsDecodedInstruction :=
  fun _ _ _ _ _ hin hready hdec hissuer => step_of_decodeFrom hin hready (decodeFrom_ok.mpr ⟨hdec, hissuer⟩)

/-- Settles O11: the placed word is issued by the operation's own agent, and taking its turn leaves the schedule as it was. -/
theorem placedWordRunsNext : Obligations.PlacedWordRunsNext := by
  intro s i hwf hready
  have hissuer : classIssuer i.encode = i.issuer := classIssuer_of_decode (decode_encode hwf)
  have hplaced : s.withFetchWord 32 i.encode.toNat = s.setInputs (.issue i.issuer i.encode :: s.inputs) := by
    rw [State.withFetchWord, scheduleFirst, BitVec.ofNat_toNat, BitVec.setWidth_eq, hissuer]
  rw [hplaced]
  exact step_of_decodeFrom rfl (readiness_setInputs i.issuer _ s ▸ hready) (decodeFrom_encode hwf)

/-! ### Holds -/

/-- The converter and the host have a step only with no conversion in flight, the host only with no commit pending. -/
theorem noPend_of_ready {a : Agent} (hready : readiness a s = .ready) :
    (a = .host ∨ a = .converter → s.convPend = none) ∧ (a = .host → s.stale = false) := by
  obtain ⟨-, -, hpend, hstale⟩ | ⟨hheld, -⟩ | ⟨hheld, -⟩ | ⟨hheld, -⟩ := readiness_cases a s
  · exact ⟨hpend, hstale⟩
  all_goals cases hready.symm.trans hheld

/-- Settles O13: a fault, a conversion in flight and a pending commit each leave the agents concerned without a step. -/
theorem heldOperationsHaveNoStep : Obligations.HeldOperationsHaveNoStep := by
  intro s i
  refine ⟨fun hfault hi => exec_held fun hready => ?_, fun hpend hissuer => exec_held fun hready => ?_,
    fun hstale hissuer => exec_held fun hready => ?_⟩
  · exact hi (Instr.issuer_eq_resetSource_iff.mp (eq_resetSource_of_ready hfault hready))
  · obtain ⟨hnone, -⟩ := noPend_of_ready hready
    exact hpend (hnone hissuer)
  · obtain ⟨-, hnone⟩ := noPend_of_ready hready
    cases hstale.symm.trans (hnone hissuer)

/-- A conversion in flight holds the converter and the host (R189). -/
theorem readiness_awaitsAdvance {a : Agent} (hfault : s.fault = none) (hpend : s.convPend ≠ none)
    (ha : a = .host ∨ a = .converter) : readiness a s = .awaitsAdvance := by
  obtain rfl | rfl := ha <;> simp [readiness, hfault, Option.isSome_iff_ne_none.mpr hpend]

theorem step_commitTurn {rest : List Turn} (hin : s.inputs = .commit :: rest) :
    step s = .next (commitTurn rest s) := by
  simp only [step, fetch, hin]

theorem step_advanceTurn {rest : List Turn} (hin : s.inputs = .advance :: rest) :
    step s = .next (advanceTurn rest s) := by
  simp only [step, fetch, hin]

theorem step_idle (hin : s.inputs = []) : step s = .next (idle s) := by
  simp only [step, fetch, hin]

theorem convAdvance_of_none (h : s.convPend = none) : convAdvance s = s := by
  simp only [convAdvance, h]

/-- Settles O14: what a turn comes to is fixed by the hold of its agent. -/
theorem heldTurnTakesLiftingStep : Obligations.HeldTurnTakesLiftingStep := by
  refine ⟨fun s a w rest hin ha => ?_, fun s rest hin => ?_, fun s rest hin h => ?_⟩
  · obtain ⟨-, -, hhalt, hadvance, hcommit⟩ := step_issue hin
    refine ⟨fun hfault => hhalt (readiness_halted hfault ha), fun hfault hpend htick => ?_,
      fun hfault hpend hstale hhost => hcommit (hhost ▸ readiness_host_awaitsCommit hfault hpend hstale)⟩
    refine hadvance (readiness_awaitsAdvance hfault hpend ?_)
    cases a <;> simp_all
  · rw [step_commitTurn hin]
    refine ⟨fun hfault => ?_, fun hfault hpend => ?_, fun hfault hpend hstale => ?_⟩
    · simp only [commitTurn, readiness_halted hfault (a := .host) (by decide), State.setInputs]
    · simp only [commitTurn, readiness_awaitsAdvance hfault hpend (.inl rfl)]
    · simp only [commitTurn, readiness_host hfault hpend hstale, State.setInputs]
  · rw [step_advanceTurn hin, advanceTurn]
    split
    · rfl
    · next hfault =>
      have hpend : s.convPend = none := h.resolve_left (by simpa using hfault)
      rw [convAdvance_of_none (s := s.setInputs rest) hpend]
      rfl

/-- Settles O15: with nothing scheduled the host's hold says which micro-step is enabled. -/
theorem idleBlockWaits : Obligations.IdleBlockWaits := by
  intro s hin
  rw [step_idle hin, idle]
  split_ifs with hfault hpend hstale
  · simp only [readiness_halted hfault (a := .host) (by decide)]
  · simp only [readiness_awaitsAdvance (not_not.mp hfault) hpend (.inl rfl)]
  · simp only [readiness_host_awaitsCommit (not_not.mp hfault) (not_not.mp hpend) hstale]
  · simp only [readiness_host (not_not.mp hfault) (not_not.mp hpend) (by simpa using hstale)]

/-- Settles O17: a step is a settled turn, or an operation, which answers a next state. -/
theorem everyStepAnswersNext : Obligations.EveryStepAnswersNext := by
  intro s
  cases hf : fetch s with
  | settled t => exact ⟨t, step_settled hf⟩
  | run i t =>
    rw [step_run hf]
    exact exec_exists_next i t

/-! ### What every step keeps -/

/-- A predicate that operations of ready agents, refusals, enabled micro-steps and turns used up keep is kept by every step. -/
theorem step_preserves {P : State → Prop} (hturn : ∀ s ts, P s → P (s.setInputs ts))
    (heffect : ∀ s i, readiness i.issuer s = .ready → P s → P (effect i s)) (hrefuse : ∀ s r, P s → P (s.refuse r))
    (hadvance : ∀ s, s.fault = none → P s → P (convAdvance s))
    (hcommit : ∀ s, s.fault = none → s.convPend = none → s.stale = true → P s → P (cpCommit s))
    {s t : State} (h : step s = .next t) (hs : P s) : P t := by
  obtain ⟨a, w, rest, i, -, hready, -, rfl, rfl⟩ | ⟨a, w, rest, r, -, -, -, rfl⟩ | ⟨rest, hfault, -, rfl, -⟩ |
    ⟨rest, hfault, hpend, hstale, rfl, -⟩ | ⟨rest, rfl, -⟩ := step_cases h
  · exact heffect _ i (readiness_setInputs i.issuer rest s ▸ hready) (hturn s rest hs)
  · exact hrefuse _ r (hturn s rest hs)
  · exact hadvance _ hfault (hturn s rest hs)
  · exact hcommit _ hfault hpend hstale (hturn s rest hs)
  · exact hturn s rest hs

/-- From `s` to `t` outputs other than `AFE_SET` are added to the trace, and nothing else happens to it. -/
def AddsNoAfeSet (s t : State) : Prop := ∃ outs, t.trace = s.trace ++ outs ∧ ∀ l, .afeSet l ∉ outs

theorem AddsNoAfeSet.of_trace_eq {s t : State} (h : t.trace = s.trace) : AddsNoAfeSet s t :=
  ⟨[], by rw [h, List.append_nil], by simp⟩

/-- The outputs of a tick, in the order of R90, hold no `AFE_SET`. -/
theorem tick_addsNoAfeSet (s : State) : AddsNoAfeSet s (tick s) := by
  simp only [AddsNoAfeSet, tick, clearAssertTest_eq, shiftRollover_eq, clearCycleEnd_eq, countTick, List.append_assoc]
  refine ⟨_, rfl, fun l => ?_⟩
  simp only [List.mem_append, not_or]
  refine ⟨?_, ?_, ?_, ?_⟩ <;> split <;> simp

/-- No operation emits `AFE_SET`: that is the commit's (R134). -/
theorem effect_addsNoAfeSet (i : Instr) (s : State) : AddsNoAfeSet s (effect i s) := by
  cases i with
  | tick => exact tick_addsNoAfeSet s
  | convDone code => exact .of_trace_eq (convDone_trace s code)
  | rdSample j =>
    obtain ⟨v, -, -, h⟩ | ⟨-, -, h⟩ | ⟨-, h⟩ := readSample_cases j s
    · exact ⟨[.readData v], congrArg State.trace h, by simp⟩
    · exact .of_trace_eq (congrArg State.trace h :)
    · exact .of_trace_eq (congrArg State.trace h :)
  | reset | wrIt | wrHlevel | wrVlevel => exact .of_trace_eq rfl
  | rdIt | rdHlevel | rdVlevel | rdCp | rdItc | rdCpc | rdStatus | rdCur | rdAfe =>
    exact ⟨[.readData _], rfl, by simp⟩

/-- `t` has the parameters of `s`, and its outputs and marks after those of `s`. -/
def Continues (s t : State) : Prop :=
  t.cfg = s.cfg ∧ (∃ outs, t.trace = s.trace ++ outs) ∧ ∃ marks, t.refusals = s.refusals ++ marks

theorem Continues.refl (s : State) : Continues s s :=
  ⟨rfl, ⟨[], by simp⟩, ⟨[], by simp⟩⟩

theorem Continues.trans {s t u : State} (hst : Continues s t) (htu : Continues t u) : Continues s u := by
  obtain ⟨hcfg, ⟨outs, htrace⟩, ⟨marks, hmarks⟩⟩ := hst
  obtain ⟨hcfg', ⟨outs', htrace'⟩, ⟨marks', hmarks'⟩⟩ := htu
  exact ⟨hcfg'.trans hcfg, ⟨outs ++ outs', by rw [htrace', htrace, List.append_assoc]⟩,
    ⟨marks ++ marks', by rw [hmarks', hmarks, List.append_assoc]⟩⟩

/-- Only a sample read of an index that no word carries sets a mark. -/
theorem effect_adds_refusals (i : Instr) (s : State) : ∃ marks, (effect i s).refusals = s.refusals ++ marks := by
  cases i with
  | rdSample j =>
    obtain ⟨v, -, -, h⟩ | ⟨-, -, h⟩ | ⟨-, h⟩ := readSample_cases j s
    · exact ⟨[], by simp [effect, h]⟩
    · exact ⟨[], by simp [effect, h]⟩
    · exact ⟨[.indexOutOfRange], by simp [effect, h]⟩
  | _ => exact ⟨[], by simp [effect, readRegister, resetBlock]⟩

theorem effect_continues (i : Instr) (s : State) : Continues s (effect i s) := by
  obtain ⟨hcfg, -⟩ := effect_cfg_inputs_draws i s
  obtain ⟨outs, htrace, -⟩ := effect_addsNoAfeSet i s
  exact ⟨hcfg, ⟨outs, htrace⟩, effect_adds_refusals i s⟩

theorem cpCommit_continues (s : State) : Continues s (cpCommit s) := by
  obtain ⟨outs, htrace, -⟩ := cpCommit_emitsPulses s
  exact ⟨cpCommit_cfg s, ⟨outs, htrace⟩, ⟨[], by simp⟩⟩

/-- Settles O18: each kind of step continues the state it is taken in. -/
theorem recordsOnlyGrow : Obligations.RecordsOnlyGrow := by
  intro s t h
  refine step_preserves (P := Continues s) (fun u _ hu => hu.trans (.refl u))
    (fun u i _ hu => hu.trans (effect_continues i u)) (fun u r hu => hu.trans ?_) (fun u _ hu => hu.trans ?_)
    (fun u _ _ _ hu => hu.trans (cpCommit_continues u)) h (.refl s)
  · exact ⟨rfl, ⟨[], by simp⟩, ⟨[r], rfl⟩⟩
  · exact ⟨convAdvance_cfg u, ⟨[], by simp [convAdvance_trace]⟩, ⟨[], by simp⟩⟩

/-- Settles O12: the step of a refused word, its four reasons, the refused encode, and the marks that no step takes away. -/
theorem refusedWordOnlySetsMark : Obligations.RefusedWordOnlySetsMark := by
  refine ⟨fun s a w rest r hin hready hdec => ?_, fun s cap m hl vl r hencode => ?_, fun s t h => ?_⟩
  · obtain ⟨-, hrefuse, -⟩ := step_issue hin
    exact ⟨hrefuse hready r hdec, decodeFrom_error_mem hdec⟩
  · obtain ⟨-, rfl⟩ := encodeFrame_eq_refused_iff.mp hencode
    exact ⟨rfl, rfl⟩
  · obtain ⟨-, -, hmarks⟩ := recordsOnlyGrow s t h
    exact hmarks

/-! ### Who drives the clear line, and who programs the AFE -/

/-- Settles O22: the micro-steps, refusals and passing turns leave the clear line and the counters; an operation that changes
them is `TICK` or `RESET`, whose one word its one agent has issued. -/
theorem onlyTickAndResetDriveClearLine : Obligations.OnlyTickAndResetDriveClearLine := by
  intro s t h
  obtain ⟨a, w, rest, i, hin, -, hdec, rfl, rfl⟩ | ⟨a, w, rest, r, -, -, -, rfl⟩ | ⟨rest, -, -, rfl, -⟩ |
    ⟨rest, -, -, -, rfl, -⟩ | ⟨rest, rfl, -⟩ := step_cases h
  · by_cases htick : i = .tick
    · subst htick
      obtain rfl := decode_eq_tick_iff.mp hdec
      exact .inr ⟨rest, .inl hin⟩
    by_cases hreset : i = .reset
    · subst hreset
      obtain rfl := decode_eq_reset_iff.mp hdec
      exact .inr ⟨rest, .inr hin⟩
    obtain ⟨hitc, hcpc, hclr⟩ := effect_counters (s := s.setInputs rest) hreset htick
    exact .inl ⟨hclr, hitc, hcpc⟩
  · exact .inl ⟨rfl, rfl, rfl⟩
  · exact .inl ⟨convAdvance_clr _, convAdvance_itc _, convAdvance_cpc _⟩
  · exact .inl ⟨cpCommit_clr _, cpCommit_itc _, cpCommit_cpc _⟩
  · exact .inl ⟨rfl, rfl, rfl⟩

/-- No operation but `RESET` clears `STALE` (R31). -/
theorem effect_keeps_stale {i : Instr} (hr : i ≠ .reset) (hs : s.stale = true) : (effect i s).stale = true := by
  cases i with
  | wrIt v => rfl
  | reset => contradiction
  | _ => simpa [effect, readRegister] using hs

/-- Settles O54: a commit faults or has its whole effect; any other step but `RESET` leaves what the commit programs. -/
theorem onlyCommitProgramsAfe : Obligations.OnlyCommitProgramsAfe := by
  intro s t h
  obtain ⟨a, w, rest, i, hin, -, hdec, rfl, rfl⟩ | ⟨a, w, rest, r, -, -, -, rfl⟩ | ⟨rest, -, -, rfl, -⟩ |
    ⟨rest, hfault, hpend, hstale, rfl, -⟩ | ⟨rest, rfl, -⟩ := step_cases h
  · by_cases hreset : i = .reset
    · subst hreset
      obtain rfl := decode_eq_reset_iff.mp hdec
      exact .inr (.inr ⟨rest, hin, rfl⟩)
    · obtain ⟨hcp, hafe⟩ := effect_cp_afe (s := s.setInputs rest) hreset
      exact .inl ⟨hcp, hafe, effect_keeps_stale (s := s.setInputs rest) hreset,
        effect_addsNoAfeSet i (s.setInputs rest)⟩
  · exact .inl ⟨rfl, rfl, id, AddsNoAfeSet.of_trace_eq rfl⟩
  · exact .inl ⟨convAdvance_cp _, convAdvance_afe _, fun hs => (convAdvance_stale _).trans hs,
      AddsNoAfeSet.of_trace_eq (convAdvance_trace _)⟩
  · obtain ⟨-, hcommit⟩ | ⟨hit, hcommit⟩ := cpCommit_cases (s.setInputs rest)
    · rw [hcommit]
      exact .inl ⟨rfl, rfl, id, AddsNoAfeSet.of_trace_eq rfl⟩
    · rw [hcommit]
      exact .inr (.inl ⟨hfault, hpend, hstale, hit, rfl⟩)
  · exact .inl ⟨rfl, rfl, id, AddsNoAfeSet.of_trace_eq rfl⟩

/-! ### Faults and `RESET` -/

/-- The one operation that raises a fault is the sample read of an unwritten cell (R186). -/
theorem effect_raises {i : Instr} {f : FaultRecord} (hs : s.fault = none) (h : (effect i s).fault = some f) :
    ∃ j, i = .rdSample j ∧ j.toNat < s.cfg.cap ∧ s.buf.read j.toNat = none ∧ f = ⟨.unwrittenRead, j⟩ ∧
      effect i s = s.raise .unwrittenRead j := by
  cases i with
  | rdSample j =>
    obtain ⟨v, -, -, hread⟩ | ⟨hlt, hnone, hread⟩ | ⟨-, hread⟩ := readSample_cases j s <;>
      rw [effect, hread] at h <;> simp [hs] at h
    exact ⟨j, rfl, hlt, hnone, h.symm, hread⟩
  | _ => simp [effect, readRegister, resetBlock, hs] at h

/-- Settles O53: the fault is an effect's, hence a sample read's, or a commit's; the other steps leave `FAULT`. -/
theorem faultsHaveTwoRaisers : Obligations.FaultsHaveTwoRaisers := by
  intro s t f hs h hf
  obtain ⟨a, w, rest, i, hin, hready, hdec, rfl, rfl⟩ | ⟨a, w, rest, r, -, -, -, rfl⟩ | ⟨rest, -, -, rfl, -⟩ |
    ⟨rest, hfault, hpend, hstale, rfl, hturn⟩ | ⟨rest, rfl, -⟩ := step_cases h
  · obtain ⟨j, rfl, hlt, hnone, rfl, hraise⟩ := effect_raises (s := s.setInputs rest) hs hf
    obtain ⟨rfl, -⟩ := encode_of_decode hdec
    obtain ⟨hpend, hstale⟩ := noPend_of_ready hready
    rw [hraise]
    exact ⟨rfl, .inr ⟨rfl, hstale rfl, hpend (.inl rfl), hnone, hlt, hin⟩⟩
  · cases hs.symm.trans hf
  · cases hs.symm.trans ((convAdvance_fault (s.setInputs rest)).symm.trans hf)
  · obtain ⟨hit, hcommit⟩ | ⟨-, hcommit⟩ := cpCommit_cases (s.setInputs rest)
    · rw [hcommit] at hf ⊢
      cases hf
      exact ⟨rfl, .inl ⟨rfl, hit.symm, hit, hstale, hpend, hturn⟩⟩
    · rw [hcommit] at hf
      cases hs.symm.trans hf
  · cases hs.symm.trans hf

/-- In a faulted block no operation but `RESET` has a step (R194). -/
theorem exec_of_fault {i : Instr} (hfault : s.fault ≠ none) (hi : i ≠ .reset) : exec i s = .next s := by
  obtain ⟨hheld, -⟩ := heldOperationsHaveNoStep s i
  exact hheld hfault hi

/-- Settles O34: the turn is an enabled commit, which raises the fault, and a faulted block holds every other operation. -/
theorem commitOfZeroFaults : Obligations.CommitOfZeroFaults := by
  intro s rest hin hfault hpend hstale hit
  have hraise : cpCommit (s.setInputs rest) = (s.setInputs rest).raise .divZero 0 := by
    obtain ⟨-, hcommit⟩ | ⟨hne, -⟩ := cpCommit_cases (s.setInputs rest)
    · exact hcommit
    · exact absurd hit hne
  rw [step_commit hin (readiness_host_awaitsCommit hfault hpend hstale), hraise]
  exact ⟨_, rfl, rfl, fun i hi => exec_of_fault (by simp) hi⟩

theorem exec_reset (s : State) : exec .reset s = .next (resetBlock s) :=
  exec_ready (i := .reset) rfl

/-- Settles O41: `RESET` runs in every state and writes the reset column; nothing is then pending. -/
theorem resetRestoresPowerOn : Obligations.ResetRestoresPowerOn := by
  intro s
  have hcp : (resetBlock s).cp = clearPeriod s.cfg 1 := rfl
  refine ⟨decodeFrom_ok.mpr ⟨decode_eq_reset_iff.mpr rfl, rfl⟩, fun hfault i => exec_of_fault hfault, resetBlock s,
    exec_reset s, rfl, rfl, rfl, rfl, ?_, rfl, rfl, rfl, rfl, rfl, fun j => rfl, rfl, rfl, rfl, fun hp hu => ?_,
    fun hin => ?_⟩
  · rw [hcp, clearPeriod_toNat, Nat.one_mul]
  · exact hcp.trans (Reg.resetValue_cp_source hp hu)
  · exact idleBlockWaits (resetBlock s) hin

end Machine
end Sys2Proof
end

section
/-! PROOFS. The invariants of 10_state.md R42: the range of the clear period (42_configuration.md R139), the canonical buffer,
and the whole invariant at power-on and at every step. -/

namespace Sys2Proof.Machine

/-! ### The clear period (R139) -/

section ClearPeriod

variable {c : Config} (hfits : c.constMinPeriod / c.tickUnit + 1 < 2 ^ 16) {it : Nat} (hit : 1 ≤ it)

include hit in
/-- A longer shift period divides to no more than the shortest. -/
theorem constMinPeriod_div_le : c.constMinPeriod / (it * c.tickUnit) ≤ c.constMinPeriod / c.tickUnit :=
  Nat.div_le_div_left (Nat.le_mul_of_pos_left _ hit) c.tickUnitPos

include hfits hit in
/-- Where `f(1)` fits 16 bits, no period is truncated. -/
theorem clearPeriod_toNat_of_fits : (clearPeriod c it).toNat = c.constMinPeriod / (it * c.tickUnit) + 1 := by
  have hle := constMinPeriod_div_le (c := c) hit
  rw [clearPeriod_toNat, Nat.mod_eq_of_lt (by omega)]

end ClearPeriod

/-- Settles O35: nothing is truncated, so the bounds are those of the quotient. -/
theorem clearPeriodRange : Obligations.ClearPeriodRange := by
  refine ⟨fun c it hfits hit => ?_, fun c hp hu => ?_⟩
  · have hpos : 0 < it * c.tickUnit := Nat.mul_pos hit c.tickUnitPos
    have hle := constMinPeriod_div_le (c := c) hit
    rw [clearPeriod_toNat_of_fits hfits hit, clearPeriod_toNat_of_fits hfits (le_refl 1), Nat.one_mul]
    refine ⟨Nat.succ_pos _, Nat.succ_le_succ hle, ?_, ?_⟩
    · rw [Nat.add_eq_right, Nat.div_eq_zero_iff_lt hpos]
    · rw [Nat.mul_assoc, Nat.mul_comm]
      exact Nat.lt_mul_div_succ c.constMinPeriod hpos
  · rw [clearPeriod_toNat, clearPeriod_toNat, hp, hu]
    decide

/-! ### The buffer -/

/-- The canonical form of the buffer and its bound `i < CAP`. -/
def BufCanonical (s : State) : Prop := s.buf.wf = true ∧ ∀ e ∈ s.buf, e.1 < s.cfg.cap

/-- A conversion writes below capacity only. -/
theorem convDone_bufCanonical {s : State} (h : BufCanonical s) (code : Data16) : BufCanonical (convDone code s) := by
  obtain ⟨hwf, hbelow⟩ := h
  obtain ⟨hlt, -, hdone⟩ | ⟨hlt, -, hdone⟩ | ⟨-, hdone⟩ := convDone_cases code s <;> rw [hdone]
  · exact ⟨Memory.write_wf hwf, Memory.write_below hlt hbelow⟩
  · exact ⟨Memory.write_wf hwf, Memory.write_below hlt hbelow⟩
  · exact ⟨hwf, hbelow⟩

theorem resetBlock_bufCanonical (s : State) : BufCanonical (resetBlock s) := by
  simp [BufCanonical, resetBlock, Memory.wf]

theorem effect_bufCanonical (i : Instr) {s : State} (h : BufCanonical s) : BufCanonical (effect i s) := by
  by_cases hreset : i = .reset
  · rw [hreset]
    exact resetBlock_bufCanonical s
  by_cases hconv : ∃ code, i = .convDone code
  · obtain ⟨code, rfl⟩ := hconv
    exact convDone_bufCanonical h code
  obtain ⟨hbuf, -⟩ := effect_buf_convPend (s := s) hreset (not_exists.mp hconv)
  obtain ⟨hcfg, -⟩ := effect_cfg_inputs_draws i s
  rwa [BufCanonical, hbuf, hcfg]

/-- Settles O45: conversions write canonically and below capacity, `RESET` empties the buffer, and nothing else touches it. -/
theorem stepKeepsBufferCanonical : Obligations.StepKeepsBufferCanonical := by
  intro s t hwf hbelow h
  refine step_preserves (P := BufCanonical) (fun _ _ hs => hs) (fun s i _ hs => effect_bufCanonical i hs)
    (fun _ _ hs => hs) (fun s _ hs => ?_) (fun s _ _ _ hs => ?_) h ⟨hwf, hbelow⟩
  · rwa [BufCanonical, convAdvance_buf, convAdvance_cfg]
  · rwa [BufCanonical, cpCommit_buf, cpCommit_cfg]

/-! ### What a tick does to the counters and the cursor (R90) -/

/-- `ITC` counts, and restarts at a rollover. -/
theorem tick_itc (s : State) : (tick s).itc =
    if reaches s.cfg (trunc s.cfg.wCnt (s.itc + 1)) s.it.toNat then 0 else trunc s.cfg.wCnt (s.itc + 1) := by
  simp only [tick, clearAssertTest_eq, shiftRollover_eq, clearCycleEnd_eq, countTick]

/-- `CPC` counts at a rollover, and restarts where it then reaches `CP`. -/
theorem tick_cpc (s : State) :
    let counted := if reaches s.cfg (trunc s.cfg.wCnt (s.itc + 1)) s.it.toNat then trunc s.cfg.wCnt (s.cpc + 1) else s.cpc
    (tick s).cpc = if reaches s.cfg counted s.cp.toNat then 0 else counted := by
  simp only [tick, clearAssertTest_eq, shiftRollover_eq, clearCycleEnd_eq, countTick]

/-- A tick resets the cursor or leaves it. -/
theorem tick_cur (s : State) : (tick s).cur = 0 ∨ (tick s).cur = s.cur := by
  simp only [tick, clearAssertTest_eq, shiftRollover_eq, clearCycleEnd_eq, countTick]
  split_ifs <;> simp

theorem trunc_lt (n v : Nat) : trunc n v < 2 ^ n := Nat.mod_lt _ (Nat.two_pow_pos n)

/-- A counter that restarts at 0 keeps its bound. -/
theorem restart_lt {p : Prop} [Decidable p] {a n : Nat} (h : a < n) : (if p then 0 else a) < n := by
  split <;> omega

theorem tick_itc_lt (s : State) : (tick s).itc < 2 ^ s.cfg.wCnt := by
  rw [tick_itc]
  exact restart_lt (trunc_lt _ _)

theorem tick_cpc_lt {s : State} (h : s.cpc < 2 ^ s.cfg.wCnt) : (tick s).cpc < 2 ^ s.cfg.wCnt := by
  rw [tick_cpc]
  refine restart_lt ?_
  split
  · exact trunc_lt _ _
  · exact h

/-! ### The invariant -/

/-- Power-on meets the invariant where `f(1)` fits 16 bits. -/
theorem Inv.resetFor {c : Config} (h : c.constMinPeriod / c.tickUnit + 1 < 65536) : Inv (State.resetFor c) where
  periodFits := h
  curLeCap := Nat.zero_le _
  bufWf := rfl
  bufBelowCap := by simp [State.resetFor]
  cpPos := (clearPeriod_toNat_of_fits (c := c) h (le_refl 1)).symm ▸ Nat.succ_pos _
  itPos _ := le_refl 1
  cpDerived _ := rfl
  itcFits := Nat.two_pow_pos _
  cpcFits := Nat.two_pow_pos _
  atomicNoPend _ := rfl
  pendBelowCap := by simp [State.resetFor]
  faultNoPend := by simp [State.resetFor]
  divZeroFault := by simp [State.resetFor]
  unwrittenFault := by simp [State.resetFor]

/-- Settles O43: `State.reset` is power-on with parameters whose `f(1)` is 1848. -/
theorem invariantHoldsAtReset : Obligations.InvariantHoldsAtReset :=
  ⟨fun _ => Inv.resetFor, Inv.resetFor (by decide)⟩

variable {s : State}

/-- `RESET` gives the power-on state but for records and schedule, of which the invariant does not speak. -/
theorem Inv.resetBlock (h : Inv s) : Inv (resetBlock s) :=
  { Inv.resetFor h.periodFits with }

theorem tick_inv (h : Inv s) : Inv (tick s) := by
  have hcur : (tick s).cur.toNat ≤ s.cfg.cap := by
    obtain hcur | hcur := tick_cur s <;> rw [hcur]
    · exact Nat.zero_le _
    · exact h.curLeCap
  rw [tick_frame]
  exact { h with curLeCap := hcur, itcFits := tick_itc_lt s, cpcFits := tick_cpc_lt h.cpcFits }

theorem convDone_inv (hf : s.fault = none) (h : Inv s) (code : Data16) : Inv (convDone code s) := by
  obtain ⟨hwf, hbelow⟩ := convDone_bufCanonical ⟨h.bufWf, h.bufBelowCap⟩ code
  have hunwritten : ∀ x, s.fault ≠ some ⟨.unwrittenRead, x⟩ := by simp [hf]
  obtain ⟨hlt, -, hdone⟩ | ⟨hlt, hsplit, hdone⟩ | ⟨-, hdone⟩ := convDone_cases code s <;> rw [hdone] at hwf hbelow ⊢
  · exact { h with
      curLeCap := (cursor_advance_toNat hlt).trans_le hlt, bufWf := hwf, bufBelowCap := hbelow
      unwrittenFault := fun x hx => absurd hx (hunwritten x) }
  · exact { h with
      bufWf := hwf, bufBelowCap := hbelow
      atomicNoPend := fun ha => absurd (hsplit.symm.trans ha) (by decide)
      pendBelowCap := fun c hc => Option.some.inj hc ▸ hlt
      faultNoPend := fun hfault => absurd hfault (by simp [hf])
      unwrittenFault := fun x hx => absurd hx (hunwritten x) }
  · exact h

theorem wrIt_inv (hf : s.fault = none) (h : Inv s) (v : Data16) : Inv { s with it := v, stale := true } :=
  { h with
    itPos := fun hstale => nomatch hstale
    cpDerived := fun hstale => nomatch hstale
    divZeroFault := fun _ hx => absurd (hf.symm.trans hx) (by simp) }

theorem readSample_inv (hp : s.convPend = none) (h : Inv s) (i : Data16) : Inv (readSample i s) := by
  obtain ⟨v, -, -, hread⟩ | ⟨hlt, hnone, hread⟩ | ⟨-, hread⟩ := readSample_cases i s <;> rw [hread]
  · exact { h with }
  · exact { h with
      faultNoPend := fun _ => hp
      divZeroFault := fun _ hx => nomatch hx
      unwrittenFault := fun x hx => by
        cases hx
        exact ⟨hlt, hnone⟩ }
  · exact { h with }

/-- Both outcomes of R117 keep the cursor within capacity: the latched value is below it, and the re-read one advances below
it only. -/
theorem convAdvance_inv (h : Inv s) : Inv (convAdvance s) := by
  obtain ⟨-, hadvance⟩ | ⟨c, cur, hpend, hcur, hadvance⟩ := convAdvance_cases s <;> rw [hadvance]
  · exact h
  · have hc := h.pendBelowCap c hpend
    have hle : cur.toNat ≤ s.cfg.cap := by
      obtain rfl | rfl := hcur
      · exact (cursor_advance_toNat (s := { s with cur := c }) hc).trans_le hc
      · split
        · next hlt => exact (cursor_advance_toNat hlt).trans_le hlt
        · exact h.curLeCap
    exact { h with
      curLeCap := hle
      atomicNoPend := fun _ => rfl
      pendBelowCap := fun _ hx => nomatch hx
      faultNoPend := fun _ => rfl }

/-- An enabled commit faults as the invariant says of `DIV_ZERO`, or re-establishes `CP = f(IT)`. -/
theorem cpCommit_inv (hf : s.fault = none) (hp : s.convPend = none) (hs : s.stale = true) (h : Inv s) :
    Inv (cpCommit s) := by
  obtain ⟨hit, hcommit⟩ | ⟨hit, hcommit⟩ := cpCommit_cases s <;> rw [hcommit]
  · exact { h with
      faultNoPend := fun _ => hp
      divZeroFault := fun x hx => by
        cases hx
        exact ⟨rfl, hit, hs⟩
      unwrittenFault := fun _ hx => nomatch hx }
  · have hpos : 1 ≤ s.it.toNat := Nat.pos_of_ne_zero fun h0 => hit (BitVec.eq_of_toNat_eq h0)
    exact { h with
      cpPos := (clearPeriod_toNat_of_fits h.periodFits hpos).symm ▸ Nat.succ_pos _
      itPos := fun _ => hpos
      cpDerived := fun _ => rfl
      divZeroFault := fun _ hx => absurd (hf.symm.trans hx) (by simp) }

/-- An agent other than the reset source that has a step is in a block without a fault. -/
theorem noFault_of_ready {a : Agent} (hready : readiness a s = .ready) (ha : a ≠ .resetSource) : s.fault = none :=
  not_not.mp fun hfault => ha (eq_resetSource_of_ready hfault hready)

theorem effect_inv (i : Instr) (hready : readiness i.issuer s = .ready) (h : Inv s) : Inv (effect i s) := by
  cases i with
  | tick => exact tick_inv h
  | convDone code => exact convDone_inv (noFault_of_ready hready nofun) h code
  | reset => exact h.resetBlock
  | wrIt v => exact wrIt_inv (noFault_of_ready hready nofun) h v
  | rdSample j => exact readSample_inv ((noPend_of_ready hready).left (.inl rfl)) h j
  | wrHlevel | wrVlevel => exact { h with }
  | rdIt | rdHlevel | rdVlevel | rdCp | rdItc | rdCpc | rdStatus | rdCur | rdAfe => exact { h with }

/-- Settles O44: each kind of step keeps the invariant; turns and marks are no part of it. -/
theorem stepKeepsInvariant : Obligations.StepKeepsInvariant := fun _ _ hs h =>
  step_preserves (P := Inv) (fun _ _ h => { h with }) (fun _ => effect_inv) (fun _ _ h => { h with })
    (fun _ _ => convAdvance_inv) (fun _ => cpCommit_inv) h hs

end Sys2Proof.Machine
end

section
/-! PROOFS. Ticks in a row (40_pulse_scheduler.md): what a tick reads (R90), the bounds of the counters in `GE` mode (R92), the
steady clear cycle in both phases (R99), and the wait for a wrap in `EQ` mode (R98). -/

namespace Sys2Proof.Machine

/-! ### One tick -/

/-- Settles O23: the effect of a tick commutes with the change, and so does its one hold. -/
theorem tickReadsOnlyTiming : Obligations.TickReadsOnlyTiming := by
  intro s t stale hl vl afe buf h
  obtain ⟨hready, rfl⟩ | ⟨hheld, rfl⟩ := exec_next h
  · rw [exec_tick (s := { s with stale := stale, hl := hl, vl := vl, afe := afe, buf := buf })
      (readiness_tickSource_iff.mp hready), tick_of_untimed]
    rfl
  · exact exec_held hheld

/-- In `GE` mode a counter that restarts where it reaches its bound stays below it. -/
theorem restart_lt_of_ge {c : Config} (h : c.compareMode = .ge) {a b : Nat} (hb : 1 ≤ b) :
    (if reaches c a b then 0 else a) < b := by
  rw [reaches_of_ge h]
  simp only [decide_eq_true_eq]
  split <;> omega

/-- Settles O20: both counters restart where they reach their bound. -/
theorem geTickLeavesCountersBelow : Obligations.GeTickLeavesCountersBelow := by
  intro s t hge hfault h
  cases (exec_tick hfault).symm.trans h
  rw [tick_itc, tick_it, tick_cpc, tick_cp]
  exact ⟨restart_lt_of_ge hge, restart_lt_of_ge hge⟩

/-- A count that fits its width is not truncated. -/
theorem trunc_of_lt {n v : Nat} (h : v < 2 ^ n) : trunc n v = v := Nat.mod_eq_of_lt h

/-- A tick by the outcomes of its four tests (R90): the two places of the clear-assert test, the rollover, the end of the
clear cycle. -/
theorem tick_of_tests {s : State} {n m : Nat} {pre roll post ends : Bool} {itc cpc : Nat}
    (hit : s.it.toNat = n) (hcp : s.cp.toNat = m)
    (hpre : decide (s.cfg.clearAssertPhase = .preIncrement ∧ s.itc = 0 ∧ s.clr = false) = pre)
    (hroll : reaches s.cfg (trunc s.cfg.wCnt (s.itc + 1)) n = roll)
    (hitc : (if roll then 0 else trunc s.cfg.wCnt (s.itc + 1)) = itc)
    (hcpc : (if roll then trunc s.cfg.wCnt (s.cpc + 1) else s.cpc) = cpc)
    (hpost : decide (s.cfg.clearAssertPhase = .postRollover ∧ itc = 0 ∧ s.clr = false) = post)
    (hends : reaches s.cfg cpc m = ends) :
    tick s = { s with
      itc := itc
      cpc := if ends then 0 else cpc
      clr := !ends && (pre || post || s.clr)
      cur := if pre || post then 0 else s.cur
      trace := s.trace ++ ((if pre then [.clrAssert, .cursorReset] else []) ++ (if roll then [.shFire] else []) ++
        (if post then [.clrAssert, .cursorReset] else []) ++ (if ends then [.clrDeassert] else [])) } := by
  subst hit hcp hpre hroll hitc hcpc hpost hends
  simp only [tick, clearAssertTest_eq, shiftRollover_eq, clearCycleEnd_eq, countTick]
  cases hphase : s.cfg.clearAssertPhase <;> simp

/-! ### Ticks in a row -/

/-- A run of ticks goes through a sequence of states, each the tick of the one before, none with a fault. -/
theorem runTicks_of_sequence {f : Nat → State} {last : Nat} (hfault : ∀ k, (f k).fault = none)
    (hstep : ∀ k, k < last → tick (f k) = f (k + 1)) {k : Nat} (hk : k ≤ last) : runTicks k (f 0) = .next (f k) := by
  induction k with
  | zero => rfl
  | succ k ih => rw [runTicks_succ (ih (by omega)), exec_tick (hfault k), hstep k (by omega)]

/-- Counting on by one, as quotient and remainder: a rollover, or not. -/
theorem succ_div_mod {n : Nat} (hn : 1 ≤ n) (k : Nat) :
    (k % n + 1 = n ∧ (k + 1) % n = 0 ∧ (k + 1) / n = k / n + 1) ∨
    (k % n + 1 < n ∧ (k + 1) % n = k % n + 1 ∧ (k + 1) / n = k / n) := by
  have hlt : k % n < n := Nat.mod_lt k hn
  have hk : k + 1 = n * (k / n) + (k % n + 1) := by rw [← Nat.add_assoc, Nat.div_add_mod]
  obtain h | h : k % n + 1 = n ∨ k % n + 1 < n := by omega
  · refine .inl ⟨h, ?_, ?_⟩ <;> rw [hk, h]
    · rw [Nat.mul_add_mod, Nat.mod_self]
    · rw [Nat.mul_add_div hn, Nat.div_self hn]
  · refine .inr ⟨h, ?_, ?_⟩
    · rw [hk, Nat.mul_add_mod, Nat.mod_eq_of_lt h]
    · rw [hk, Nat.mul_add_div hn, Nat.div_eq_of_lt h, Nat.add_zero]

/-! ### A tick of a steady clear cycle (R99) -/

section SteadyCycle

variable {s : State} {n m : Nat} (hit : s.it.toNat = n) (hcp : s.cp.toNat = m) (hn : 1 ≤ n) (hm : 1 ≤ m)
  (hnw : n < 2 ^ s.cfg.wCnt) (hmw : m < 2 ^ s.cfg.wCnt)

include hn hnw in
/-- The rollover test where `ITC` is a number of ticks modulo `IT`, and what it leaves there. -/
theorem steady_rollover (q : Nat) :
    reaches s.cfg (trunc s.cfg.wCnt (q % n + 1)) n = decide ((q + 1) % n = 0) ∧
    (if decide ((q + 1) % n = 0) then 0 else trunc s.cfg.wCnt (q % n + 1)) = (q + 1) % n := by
  obtain ⟨h, hmod, -⟩ | ⟨h, hmod, -⟩ := succ_div_mod hn q
  · simp [hmod, h, trunc_of_lt hnw]
  · rw [hmod, trunc_of_lt (by omega), reaches_of_lt h]
    simp

/-- `CPC` as step 3 of R90 leaves it in the tick after `q` ticks of cycles of `m` shift periods of `n` ticks. -/
def countedPeriods (n m q : Nat) : Nat := if (q + 1) % n = 0 then q / n % m + 1 else q / n % m

include hn hm hmw in
/-- The clear-cycle test where `CPC` is a number of shift periods modulo `CP`, and what it leaves there. -/
theorem steady_cycleEnd (q : Nat) :
    (if decide ((q + 1) % n = 0) then trunc s.cfg.wCnt (q / n % m + 1) else q / n % m) = countedPeriods n m q ∧
    reaches s.cfg (countedPeriods n m q) m = decide ((q + 1) % (n * m) = 0) ∧
    (if decide ((q + 1) % (n * m) = 0) then 0 else countedPeriods n m q) = (q + 1) / n % m := by
  have hlt : q / n % m < m := Nat.mod_lt _ hm
  unfold countedPeriods
  rw [Nat.mod_mul]
  obtain ⟨-, hmod, hdiv⟩ | ⟨-, hmod, hdiv⟩ := succ_div_mod hn q
  · rw [hmod, hdiv, trunc_of_lt (by omega)]
    obtain ⟨h, hperiods, -⟩ | ⟨h, hperiods, -⟩ := succ_div_mod hm (q / n)
    · simp [hperiods, h]
    · rw [hperiods]
      simp [reaches_of_lt h, Nat.ne_of_gt hn]
  · simp [hmod, hdiv, reaches_of_lt hlt]

include hit hcp hn hm hnw hmw in
/-- A tick after `q` ticks of steady clear cycles moves the counters on by one tick; the pulse comes with every `n`-th tick,
the end of the clear cycle with every `n * m`-th. -/
theorem tick_steady {q : Nat} {pre post : Bool} (hitc : s.itc = q % n) (hcpc : s.cpc = q / n % m)
    (hpre : decide (s.cfg.clearAssertPhase = .preIncrement ∧ q % n = 0 ∧ s.clr = false) = pre)
    (hpost : decide (s.cfg.clearAssertPhase = .postRollover ∧ (q + 1) % n = 0 ∧ s.clr = false) = post) :
    tick s = { s with
      itc := (q + 1) % n
      cpc := (q + 1) / n % m
      clr := !decide ((q + 1) % (n * m) = 0) && (pre || post || s.clr)
      cur := if pre || post then 0 else s.cur
      trace := s.trace ++ ((if pre then [.clrAssert, .cursorReset] else []) ++
        (if (q + 1) % n = 0 then [.shFire] else []) ++ (if post then [.clrAssert, .cursorReset] else []) ++
        (if (q + 1) % (n * m) = 0 then [.clrDeassert] else [])) } := by
  obtain ⟨hroll, hitc'⟩ := steady_rollover hn hnw q
  obtain ⟨hcounted, hends, hcpc'⟩ := steady_cycleEnd hn hm hmw q
  rw [← hitc] at hpre hroll hitc'
  rw [← hcpc] at hcounted
  rw [tick_of_tests hit hcp hpre hroll hitc' hcounted hpost hends, hcpc']
  simp only [decide_eq_true_eq]

/-! ### The cycle under `PRE_INCREMENT` -/

/-- The block `s`, which stands at the start of a clear cycle of `m` shift periods of `n` ticks, after `k` ticks. -/
def preCycleAt (n m : Nat) (s : State) (k : Nat) : State :=
  { s with
    itc := k % n
    cpc := k / n % m
    clr := decide (0 < k ∧ k < m * n)
    cur := if k = 0 then s.cur else 0
    trace := s.trace ++ (List.range k).flatMap (preCycleOutputs n m) }

/-- The outputs of the first ticks are those of the ticks before the last, then the last one's. -/
theorem flatMap_range_succ {α : Type} (f : Nat → List α) (k : Nat) :
    (List.range (k + 1)).flatMap f = (List.range k).flatMap f ++ f k := by
  simp [List.range_succ]

/-- Up to its end, a number is a multiple of the cycle's length only there. -/
theorem mod_eq_zero_iff_of_le {k c : Nat} (hpos : 0 < k) (hle : k ≤ c) : k % c = 0 ↔ k = c := by
  obtain hlt | rfl := Nat.lt_or_eq_of_le hle
  · rw [Nat.mod_eq_of_lt hlt]
    omega
  · simp

include hit hcp hn hm hnw hmw in
theorem tick_preCycleAt (hphase : s.cfg.clearAssertPhase = .preIncrement) {k : Nat} (hk : k < m * n) :
    tick (preCycleAt n m s k) = preCycleAt n m s (k + 1) := by
  have hpre : decide (s.cfg.clearAssertPhase = .preIncrement ∧ k % n = 0 ∧ decide (0 < k ∧ k < m * n) = false) =
      decide (k = 0) := by
    simp only [hphase, decide_eq_decide, decide_eq_false_iff_not]
    refine ⟨by omega, ?_⟩
    rintro rfl
    simp
  have hpost : decide (s.cfg.clearAssertPhase = .postRollover ∧ (k + 1) % n = 0 ∧
      decide (0 < k ∧ k < m * n) = false) = false := by simp [hphase]
  have hends : (k + 1) % (n * m) = 0 ↔ k + 1 = m * n := by
    rw [Nat.mul_comm n m]
    exact mod_eq_zero_iff_of_le (Nat.succ_pos k) hk
  rw [tick_steady (s := preCycleAt n m s k) hit hcp hn hm hnw hmw rfl rfl hpre hpost]
  simp only [preCycleAt, flatMap_range_succ, preCycleOutputs, List.append_assoc, hends]
  have hclr : (!decide (k + 1 = m * n) && (decide (k = 0) || false || decide (0 < k ∧ k < m * n))) =
      decide (0 < k + 1 ∧ k + 1 < m * n) := by
    rw [Bool.eq_iff_iff]
    simp
    omega
  rw [hclr]
  by_cases h0 : k = 0 <;> simp [h0]

/-! ### The cycle under `POST_ROLLOVER` -/

/-- The block `s`, which stands just before the asserting tick of a clear cycle of `m` shift periods of `n` ticks, after `k`
ticks: the counters are those after `n - 1` ticks more. -/
def postCycleAt (n m : Nat) (s : State) (k : Nat) : State :=
  { s with
    itc := (k + (n - 1)) % n
    cpc := (k + (n - 1)) / n % m
    clr := decide (0 < k ∧ k ≤ (m - 1) * n)
    cur := if k = 0 then s.cur else 0
    trace := s.trace ++ (List.range k).flatMap (postCycleOutputs n m) }

/-- A multiple of `n` below `m * n` is at most `(m - 1) * n`. -/
theorem le_of_mod_eq_zero {n m k : Nat} (h : k % n = 0) (hk : k < m * n) : k ≤ (m - 1) * n := by
  obtain ⟨a, rfl⟩ := Nat.dvd_of_mod_eq_zero h
  rw [Nat.mul_comm m n] at hk
  have ha : a < m := Nat.lt_of_mul_lt_mul_left hk
  rw [Nat.mul_comm n a]
  exact Nat.mul_le_mul_right n (by omega)

include hit hcp hn hm hnw hmw in
theorem tick_postCycleAt (hphase : s.cfg.clearAssertPhase = .postRollover) {k : Nat} (hk : k < m * n) :
    tick (postCycleAt n m s k) = postCycleAt n m s (k + 1) := by
  have hnext : k + (n - 1) + 1 = k + n := by omega
  have hlength : (m - 1) * n + n = m * n := by rw [← Nat.succ_mul, Nat.succ_eq_add_one, Nat.sub_add_cancel hm]
  have hroll : (k + (n - 1) + 1) % n = 0 ↔ k % n = 0 := by rw [hnext, Nat.add_mod_right]
  have hends : (k + (n - 1) + 1) % (n * m) = 0 ↔ k = (m - 1) * n := by
    rw [hnext, Nat.mul_comm n m]
    obtain hgt | hle := Nat.lt_or_ge ((m - 1) * n) k
    · rw [Nat.mod_eq_sub_mod (by omega), Nat.mod_eq_of_lt (by omega)]
      omega
    · rw [mod_eq_zero_iff_of_le (by omega) (by omega)]
      omega
  have hpre : decide (s.cfg.clearAssertPhase = .preIncrement ∧ (k + (n - 1)) % n = 0 ∧
      decide (0 < k ∧ k ≤ (m - 1) * n) = false) = false := by simp [hphase]
  have hpost : decide (s.cfg.clearAssertPhase = .postRollover ∧ (k + (n - 1) + 1) % n = 0 ∧
      decide (0 < k ∧ k ≤ (m - 1) * n) = false) = decide (k = 0) := by
    simp only [hphase, hroll, true_and, decide_eq_decide, decide_eq_false_iff_not]
    constructor
    · rintro ⟨hmod, hno⟩
      have := le_of_mod_eq_zero hmod hk
      omega
    · rintro rfl
      simp
  rw [tick_steady (s := postCycleAt n m s k) hit hcp hn hm hnw hmw rfl rfl hpre hpost]
  have hclr : (!decide (k = (m - 1) * n) && (false || decide (k = 0) || decide (0 < k ∧ k ≤ (m - 1) * n))) =
      decide (0 < k + 1 ∧ k + 1 ≤ (m - 1) * n) := by
    rw [Bool.eq_iff_iff]
    simp
    omega
  simp only [postCycleAt, flatMap_range_succ, postCycleOutputs, List.append_assoc, hroll, hends, hclr]
  rw [show k + (n - 1) + 1 = k + 1 + (n - 1) by omega]
  by_cases h0 : k = 0 <;> simp [h0]

end SteadyCycle

/-- Settles O24: the start is `preCycleAt` at 0, and each tick moves it on. -/
theorem steadyCyclePreIncrement : Obligations.SteadyCyclePreIncrement := by
  intro s n m k hphase hfault hit hcp hn hm hnw hmw hitc hcpc hclr hk1 hk
  have hstart : preCycleAt n m s 0 = s := by
    cases s
    simp_all [preCycleAt]
  have hrun := runTicks_of_sequence (f := preCycleAt n m s) (last := m * n) (fun _ => hfault)
    (fun _ => tick_preCycleAt hit hcp hn hm hnw hmw hphase) hk
  rw [hstart] at hrun
  have hperiods : k / n % m = if k = m * n then 0 else k / n := by
    split
    · next hend => rw [hend, Nat.mul_div_cancel m hn, Nat.mod_self]
    · next hend => exact Nat.mod_eq_of_lt (Nat.div_lt_of_lt_mul (by rw [Nat.mul_comm]; omega))
  have hpos : 0 < k := hk1
  simp [hrun, preCycleAt, hperiods, hpos, hpos.ne']

/-- Settles O25: the start is `postCycleAt` at 0, and each tick moves it on. -/
theorem steadyCyclePostRollover : Obligations.SteadyCyclePostRollover := by
  intro s n m k hphase hfault hit hcp hn hm hnw hmw hitc hcpc hclr hk1 hk
  have hstart : postCycleAt n m s 0 = s := by
    have hperiods : (n - 1) / n % m = 0 := by rw [Nat.div_eq_of_lt (by omega), Nat.zero_mod]
    have hticks : (n - 1) % n = n - 1 := Nat.mod_eq_of_lt (by omega)
    cases s
    simp_all [postCycleAt]
  have hrun := runTicks_of_sequence (f := postCycleAt n m s) (last := m * n) (fun _ => hfault)
    (fun _ => tick_postCycleAt hit hcp hn hm hnw hmw hphase) hk
  have hback : k + (n - 1) = k - 1 + n := by omega
  rw [hstart] at hrun
  have hpos : 0 < k := hk1
  simp [hrun, postCycleAt, hback, Nat.add_div_right _ hn, hpos, hpos.ne']

/-! ### The wait for a wrap in `EQ` mode (R98) -/

/-- After `k` ticks without a fault `t` has counted `ITC` of `s` on by `k`, with no shift pulse, and holds what a tick reads
to count. -/
def CountsWithoutPulse (k : Nat) (s t : State) : Prop :=
  t.cfg = s.cfg ∧ t.it = s.it ∧ t.fault = none ∧ t.itc = (s.itc + k) % 2 ^ s.cfg.wCnt ∧ EmitsPulses 0 s t

section Wait

variable {s t : State} {k : Nat} (heq : s.cfg.compareMode = .eq) (hcounts : CountsWithoutPulse k s t)

include hcounts in
theorem CountsWithoutPulse.trunc_succ : trunc t.cfg.wCnt (t.itc + 1) = (s.itc + (k + 1)) % 2 ^ s.cfg.wCnt := by
  obtain ⟨hcfg, -, -, hitc, -⟩ := hcounts
  rw [hcfg, hitc, trunc, Nat.mod_add_mod, Nat.add_assoc]

include heq hcounts in
theorem CountsWithoutPulse.reaches_iff :
    reaches t.cfg (trunc t.cfg.wCnt (t.itc + 1)) t.it.toNat = true ↔
      (s.itc + (k + 1)) % 2 ^ s.cfg.wCnt = s.it.toNat := by
  have htrunc := hcounts.trunc_succ
  obtain ⟨hcfg, hit, -⟩ := hcounts
  rw [htrunc, hcfg, hit, reaches_of_eq heq, decide_eq_true_iff]

include heq hcounts in
/-- Away from `IT`, one tick more goes by without a pulse. -/
theorem CountsWithoutPulse.succ (hno : (s.itc + (k + 1)) % 2 ^ s.cfg.wCnt ≠ s.it.toNat) :
    CountsWithoutPulse (k + 1) s (tick t) := by
  have hroll := (hcounts.reaches_iff heq).not.mpr hno
  have htrunc := hcounts.trunc_succ
  have hpulses := tick_emitsPulses t
  obtain ⟨hcfg, hit, hfault, -, hbefore⟩ := hcounts
  rw [if_neg hroll] at hpulses
  exact ⟨(tick_cfg t).trans hcfg, (tick_it t).trans hit, (tick_fault t).trans hfault,
    by rw [tick_itc, if_neg hroll, htrunc], hbefore.trans hpulses⟩

include heq hcounts in
/-- At `IT`, the tick is a rollover. -/
theorem CountsWithoutPulse.rollover (h : (s.itc + (k + 1)) % 2 ^ s.cfg.wCnt = s.it.toNat) :
    (tick t).itc = 0 ∧ EmitsPulses 1 s (tick t) := by
  have hroll := (hcounts.reaches_iff heq).mpr h
  have hpulses := tick_emitsPulses t
  obtain ⟨-, -, -, -, hbefore⟩ := hcounts
  rw [if_pos hroll] at hpulses
  exact ⟨by rw [tick_itc, if_pos hroll], hbefore.trans hpulses⟩

include heq in
/-- From `ITC` at or above `IT`, the counter meets `IT` only after the wrap. -/
theorem runTicks_countsWithoutPulse (hfault : s.fault = none) (hle : s.it.toNat ≤ s.itc) (hlt : s.itc < 2 ^ s.cfg.wCnt)
    (hk : k < 2 ^ s.cfg.wCnt - s.itc + s.it.toNat) :
    ∃ t, runTicks k s = .next t ∧ CountsWithoutPulse k s t := by
  induction k with
  | zero => exact ⟨s, rfl, rfl, rfl, hfault, (Nat.mod_eq_of_lt hlt).symm, .of_trace_eq rfl⟩
  | succ k ih =>
    obtain ⟨t, hrun, hcounts⟩ := ih (by omega)
    refine ⟨tick t, ?_, hcounts.succ heq ?_⟩
    · obtain ⟨-, -, hfault', -⟩ := hcounts
      rw [runTicks_succ hrun, exec_tick hfault']
    · obtain h | h := Nat.lt_or_ge (s.itc + (k + 1)) (2 ^ s.cfg.wCnt)
      · rw [Nat.mod_eq_of_lt h]
        omega
      · rw [Nat.mod_eq_sub_mod h, Nat.mod_eq_of_lt (by omega)]
        omega

end Wait

/-- Settles O26: the counter runs without a pulse up to the tick that meets `IT` after the wrap. -/
theorem eqLoweredItWaitsForWrap : Obligations.EqLoweredItWaitsForWrap := by
  rintro s n heq hfault rfl hpos hle hlt
  refine ⟨fun k hk => ?_, ?_⟩
  · obtain ⟨t, hrun, -, -, -, hitc, outs, htrace, hpulses⟩ := runTicks_countsWithoutPulse heq hfault hle hlt hk
    exact ⟨t, outs, hrun, hitc, htrace, hpulses⟩
  · obtain ⟨k, hk⟩ : ∃ k, 2 ^ s.cfg.wCnt - s.itc + s.it.toNat = k + 1 := ⟨_, (Nat.sub_add_cancel (by omega)).symm⟩
    obtain ⟨t, hrun, hcounts⟩ := runTicks_countsWithoutPulse (k := k) heq hfault hle hlt (by omega)
    have hmeets : (s.itc + (k + 1)) % 2 ^ s.cfg.wCnt = s.it.toNat := by
      rw [show s.itc + (k + 1) = s.it.toNat + 2 ^ s.cfg.wCnt by omega, Nat.add_mod_right, Nat.mod_eq_of_lt (by omega)]
    obtain ⟨hitc, outs, htrace, hpulses⟩ := hcounts.rollover heq hmeets
    obtain ⟨-, -, hfault', -⟩ := hcounts
    exact ⟨tick t, outs, by rw [hk, runTicks_succ hrun, exec_tick hfault'], hitc, htrace, hpulses⟩

end Sys2Proof.Machine
end

section
/-! PROOFS. Sample acquisition beyond one atomic conversion (41_sample_acquisition.md): the two halves of a split conversion
(R117), the cursor reset lost between them (R118), and the fill order (R116). -/

namespace Sys2Proof.Machine

/-! ### The two halves of a split conversion (R117) -/

/-- Below capacity the first half writes the cell at the cursor and latches the cursor. -/
theorem convDone_interleaved {s : State} (hi : s.cfg.eventAtomicity = .interleaved) (h : s.cur.toNat < s.cfg.cap)
    (code : Data16) : convDone code s = { s.writeCell s.cur.toNat code with convPend := some s.cur } := by
  obtain ⟨-, hatomic, -⟩ | ⟨-, -, hdone⟩ | ⟨hge, -⟩ := convDone_cases code s
  · cases hi.symm.trans hatomic
  · exact hdone
  · omega

/-- Settles O28: the two outcomes of the first half, split by whether the cursor is below capacity. -/
theorem splitConversionLatches : Obligations.SplitConversionLatches := by
  intro s code hsplit hfault hpend
  rw [exec_convDone hfault hpend]
  split
  · next hlt =>
    rw [convDone_interleaved hsplit hlt]
    exact ⟨_, rfl, rfl, Memory.read_write s.buf s.cur.toNat code⟩
  · next hge => rw [convDone_discards hge]

/-- With a conversion in flight, `CONV_ADVANCE` completes it by one of the two outcomes. -/
theorem convAdvance_of_some {s : State} {c : Data16} (h : s.convPend = some c) :
    ∃ cur, convAdvance s = { s with cur := cur, convPend := none, draws := s.draws + 1 } ∧
      (cur = c + 1 ∨ cur = if s.cur.toNat < s.cfg.cap then s.cur + 1 else s.cur) := by
  obtain ⟨hnone, -⟩ | ⟨c', cur, hsome, hcur, hadvance⟩ := convAdvance_cases s
  · cases hnone.symm.trans h
  · cases hsome.symm.trans h
    exact ⟨cur, hadvance, hcur⟩

/-- Settles O29: the turn is the second half; where the cursor is still the latched value, the outcomes agree. -/
theorem advanceTakesOneOfTwoOutcomes : Obligations.AdvanceTakesOneOfTwoOutcomes := by
  intro s c rest hin hfault hpend
  obtain ⟨cur, hadvance, hcur⟩ := convAdvance_of_some (s := s.setInputs rest) hpend
  refine ⟨cur, ?_, hcur, fun hsame hlt => ?_⟩
  · have hno : ¬s.fault.isSome = true := by simp [hfault]
    rw [step_advanceTurn hin, advanceTurn, if_neg hno, hadvance]
    rfl
  · obtain rfl | rfl := hcur
    · rfl
    · rw [State.setInputs_cur, State.setInputs_cfg, hsame, if_pos hlt]

/-! ### The lost cursor reset (R118) -/

/-- A tick that emits `CURSOR_RESET`, at either place of the clear-assert test, has reset the cursor. -/
theorem tick_cur_of_cursorReset {s : State} (h : .cursorReset ∈ (tick s).trace.drop s.trace.length) :
    (tick s).cur = 0 := by
  simp only [tick, clearAssertTest_eq, shiftRollover_eq, clearCycleEnd_eq, countTick, List.append_assoc,
    List.drop_left] at h ⊢
  split_ifs at h ⊢ <;> simp_all

/-- After a cursor reset the second half advances the latched value, or the cursor from 0. -/
theorem convAdvance_cur_of_reset {u : State} {c : Data16} (hpend : u.convPend = some c) (hcur : u.cur = 0)
    (hc : c.toNat < u.cfg.cap) :
    (convAdvance u).cur.toNat = c.toNat + 1 ∨ (convAdvance u).cur.toNat = 1 := by
  obtain ⟨cur, hadvance, rfl | rfl⟩ := convAdvance_of_some hpend <;> rw [hadvance]
  · exact .inl (cursor_advance_toNat (s := { u with cur := c }) hc)
  · refine .inr ?_
    rw [hcur, if_pos (show (0 : Data16).toNat < u.cfg.cap from u.cfg.capPos)]
    rfl

/-- Settles O30: the tick keeps the latched value and resets the cursor. -/
theorem lostCursorReset : Obligations.LostCursorReset := by
  intro s t u code hsplit hfault hpend hlt hconv htick hreset
  rw [exec_convDone hfault hpend, convDone_interleaved hsplit hlt] at hconv
  obtain ⟨hcfg, hlatched, hfault'⟩ : t.cfg = s.cfg ∧ t.convPend = some s.cur ∧ t.fault = none := by
    cases hconv
    exact ⟨rfl, rfl, hfault⟩
  cases (exec_tick hfault').symm.trans htick
  have hcur := tick_cur_of_cursorReset hreset
  have hkept : (tick t).convPend = some s.cur := (tick_convPend t).trans hlatched
  exact ⟨hcur, hkept, convAdvance_cur_of_reset hkept hcur (by rwa [tick_cfg, hcfg])⟩

/-! ### The fill order (R116) -/

/-- `t` is `s` after the conversions `codes`: they fill the cells from the cursor on, up to capacity. -/
def FilledFrom (codes : List Data16) (s t : State) : Prop :=
  t = { s with buf := t.buf, cur := t.cur } ∧
  t.cur.toNat = min (s.cur.toNat + codes.length) s.cfg.cap ∧
  ∀ j, t.buf.read j =
    if s.cur.toNat ≤ j ∧ j < min (s.cur.toNat + codes.length) s.cfg.cap then codes[j - s.cur.toNat]?
    else s.buf.read j

variable {s t : State} {code : Data16} {codes : List Data16}

theorem FilledFrom.nil (hle : s.cur.toNat ≤ s.cfg.cap) : FilledFrom [] s s := by
  refine ⟨rfl, by simp [hle], fun j => (if_neg ?_).symm⟩
  simp
  omega

/-- One conversion below capacity, then the others. -/
theorem FilledFrom.cons_of_lt (hlt : s.cur.toNat < s.cfg.cap)
    (h : FilledFrom codes { s.writeCell s.cur.toNat code with cur := s.cur + 1 } t) : FilledFrom (code :: codes) s t := by
  have hcursor := cursor_advance_toNat hlt
  obtain ⟨hframe, hcur, hcells⟩ := h
  simp only [hcursor] at hcur hcells
  refine ⟨?_, ?_, fun j => ?_⟩
  · rw [hframe]
    rfl
  · rw [hcur, List.length_cons]
    simp only [State.writeCell_cfg]
    omega
  · rw [hcells j, List.length_cons, State.writeCell_cfg, State.writeCell_buf, Memory.read_write]
    obtain hj | rfl | hj := Nat.lt_trichotomy j s.cur.toNat
    · rw [if_neg (by omega), if_neg (by omega), if_neg (by omega)]
    · rw [if_neg (by omega), if_pos rfl, if_pos (by omega), Nat.sub_self]
      rfl
    · rw [if_neg hj.ne', show j - s.cur.toNat = j - (s.cur.toNat + 1) + 1 by omega, List.getElem?_cons_succ]
      exact if_congr (by omega) rfl rfl

/-- At capacity a conversion is discarded. -/
theorem FilledFrom.cons_of_full (hfull : s.cur.toNat = s.cfg.cap) (h : FilledFrom codes s t) :
    FilledFrom (code :: codes) s t := by
  obtain ⟨hframe, hcur, hcells⟩ := h
  refine ⟨hframe, by rw [hcur, List.length_cons]; omega, fun j => ?_⟩
  rw [hcells j, if_neg (by omega), if_neg (by omega)]

theorem runConversions_cons (hfault : s.fault = none) (hpend : s.convPend = none) :
    runConversions (code :: codes) s = runConversions codes (convDone code s) := by
  simp only [runConversions, List.map_cons, runOps, exec_convDone hfault hpend]

/-- Conversions in a row fill the buffer from the cursor on. -/
theorem runConversions_filledFrom (codes : List Data16) {s : State} (hatomic : s.cfg.eventAtomicity = .atomic)
    (hfault : s.fault = none) (hpend : s.convPend = none) (hle : s.cur.toNat ≤ s.cfg.cap) :
    ∃ t, runConversions codes s = .next t ∧ FilledFrom codes s t := by
  induction codes generalizing s with
  | nil => exact ⟨s, rfl, .nil hle⟩
  | cons code codes ih =>
    rw [runConversions_cons hfault hpend]
    obtain hlt | hfull := Nat.lt_or_eq_of_le hle
    · rw [convDone_atomic hatomic hlt]
      obtain ⟨t, hrun, ht⟩ := ih (s := { s.writeCell s.cur.toNat code with cur := s.cur + 1 }) hatomic hfault hpend
        ((cursor_advance_toNat hlt).trans_le hlt)
      exact ⟨t, hrun, ht.cons_of_lt hlt⟩
    · rw [convDone_discards hfull.not_lt]
      obtain ⟨t, hrun, ht⟩ := ih hatomic hfault hpend hle
      exact ⟨t, hrun, ht.cons_of_full hfull⟩

/-- Settles O31: the fill from the cursor on, with the cursor at 0. -/
theorem conversionsFillInOrder : Obligations.ConversionsFillInOrder := by
  intro s codes hatomic hfault hpend hcur
  have hzero : s.cur.toNat = 0 := by rw [hcur]; rfl
  obtain ⟨t, hrun, hframe, hcursor, hcells⟩ := runConversions_filledFrom codes hatomic hfault hpend (by omega)
  rw [hzero, Nat.zero_add] at hcursor
  refine ⟨t, hrun, hframe, hcursor, fun j => ?_⟩
  rw [hcells j, hzero]
  simp

end Sys2Proof.Machine
end

section
/-! PROOFS. The writes of a SET (45_host_boundary.md R173): their orders, and the configuration that each order leaves. -/

namespace Sys2Proof.Machine

/-- Settles O50: the listed orders are the permutations of the three writes, up to their own order. -/
theorem setOrdersAreAllOrders : Obligations.SetOrdersAreAllOrders := by
  intro r order
  rw [← List.mem_permutations']
  simp only [setWriteOrders, setWrites, List.permutations', List.permutations'Aux, List.flatMap_cons, List.flatMap_nil,
    List.mem_cons, List.map_cons, List.map_nil, List.not_mem_nil, List.cons_append, List.nil_append,
    or_false, List.append_nil]
  tauto

/-! ### Operations of the host in a row, by their turns -/

/-- The turn at which the host issues an operation. -/
def hostTurn (i : Instr) : Turn := .issue .host i.encode

/-- The effects of operations, one after another. -/
def applyAll (is : List Instr) (s : State) : State := is.foldl (fun t i => effect i t) s

/-- The host's run, on the states of the model. -/
def runState (n : Nat) (s : State) : Result := Host.Core.run core n s

theorem runState_succ {s t : State} (h : step s = .next t) (n : Nat) : runState (n + 1) s = runState n t := by
  have hstep : core.step s = .next t := h
  simp only [runState, Host.Core.run, hstep]
  rfl

/-- A turn of a host that has a step is its operation's effect. -/
theorem step_hostTurn {s : State} {i : Instr} {rest : List Turn} (hi : i.issuer = .host)
    (hwf : i.wellFormed s.cfg.cap = true) (hready : readiness .host s = .ready) :
    step (s.setInputs (hostTurn i :: rest)) = .next ((effect i s).setInputs rest) := by
  have hdec := decodeFrom_encode hwf
  rw [hi] at hdec
  rw [step_of_decodeFrom (s := s.setInputs (hostTurn i :: rest)) rfl (readiness_setInputs .host _ s ▸ hready) hdec]
  rw [exec_ready (i := i) (by rw [hi]; exact hready), effect_setInputs, effect_setInputs]
  rfl

/-! ### Level writes -/

/-- The operations write the levels `h` and `v`, each any number of times, and nothing else. -/
def LevelWrites (h v : Byte) (is : List Instr) : Prop := ∀ i ∈ is, i = .wrHlevel h ∨ i = .wrVlevel v

variable {h v : Byte} {is : List Instr}

/-- Level writes leave the levels that they name, and all else. -/
theorem applyAll_levelWrites (hall : LevelWrites h v is) (s : State) : applyAll is s =
    { s with hl := if .wrHlevel h ∈ is then h else s.hl, vl := if .wrVlevel v ∈ is then v else s.vl } := by
  induction is generalizing s with
  | nil => simp [applyAll]
  | cons i is ih =>
    obtain ⟨hi, his⟩ := List.forall_mem_cons.mp hall
    rw [applyAll, List.foldl_cons, ← applyAll, ih his]
    obtain rfl | rfl := hi <;> simp [effect]

/-- Level writes of a host that has a step run one a step. -/
theorem runState_levelWrites (hall : LevelWrites h v is) {s : State} (hready : readiness .host s = .ready)
    (rest : List Turn) (n : Nat) :
    runState (is.length + n) (s.setInputs (is.map hostTurn ++ rest)) =
      runState n ((applyAll is s).setInputs rest) := by
  induction is generalizing s with
  | nil => simp [applyAll]
  | cons i is ih =>
    obtain ⟨hi, his⟩ := List.forall_mem_cons.mp hall
    have hnext : step (s.setInputs (hostTurn i :: (is.map hostTurn ++ rest))) =
        .next ((effect i s).setInputs (is.map hostTurn ++ rest)) ∧ readiness .host (effect i s) = .ready := by
      obtain rfl | rfl := hi <;> exact ⟨step_hostTurn rfl rfl hready, hready⟩
    obtain ⟨hstep, hready'⟩ := hnext
    rw [List.length_cons, Nat.add_right_comm, List.map_cons, List.cons_append, runState_succ hstep, ih his hready']
    rfl

/-! ### The whole SET -/

/-- A pending commit is the next step of a block in which nothing but the host's operations is scheduled. -/
theorem step_pendingCommit {s : State} (hready : readiness .host s = .awaitsCommit) (is : List Instr) :
    step (s.setInputs (is.map hostTurn)) = .next (cpCommit (s.setInputs (is.map hostTurn))) := by
  have hready' := (readiness_setInputs .host (is.map hostTurn) s).trans hready
  cases is with
  | nil => simp only [step_idle (s := s.setInputs ([].map hostTurn)) rfl, idle, hready']
  | cons i is =>
    obtain ⟨-, -, -, -, hcommit⟩ := step_issue (s := s.setInputs ((i :: is).map hostTurn)) rfl
    exact hcommit hready'

/-- The block `s` after a write of `it` and its commit. -/
def committed (it : Data16) (s : State) : State :=
  { s with it := it, cp := clearPeriod s.cfg it.toNat, afe := s.vl, stale := false, trace := s.trace ++ [.afeSet s.vl] }

/-- A write of `IT` among level writes, with nothing else scheduled: the commit follows the write of `IT` at once. -/
theorem runState_set {pre post : List Instr} (hpre : LevelWrites h v pre) (hpost : LevelWrites h v post) {it : Data16}
    (hit : it ≠ 0) {s : State} (hfault : s.fault = none) (hpend : s.convPend = none) (hstale : s.stale = false) :
    runState (pre.length + (post.length + 2)) (s.setInputs ((pre ++ Instr.wrIt it :: post).map hostTurn)) =
      .next ((applyAll post (committed it (applyAll pre s))).setInputs []) := by
  have hready := readiness_host hfault hpend hstale
  have hready' : readiness .host (applyAll pre s) = .ready := by rwa [applyAll_levelWrites hpre]
  have hwrite := step_hostTurn (i := .wrIt it) (rest := post.map hostTurn) rfl rfl hready'
  have hpending : readiness .host (effect (.wrIt it) (applyAll pre s)) = .awaitsCommit := by
    rw [applyAll_levelWrites hpre]
    exact readiness_host_awaitsCommit hfault hpend rfl
  have hcommit : cpCommit ((effect (.wrIt it) (applyAll pre s)).setInputs (post.map hostTurn)) =
      (committed it (applyAll pre s)).setInputs (post.map hostTurn ++ []) := by
    rw [cpCommit_of_it_ne_zero (s := (effect (.wrIt it) (applyAll pre s)).setInputs (post.map hostTurn)) hit,
      List.append_nil]
    rfl
  have hready'' : readiness .host (committed it (applyAll pre s)) = .ready := by
    rw [applyAll_levelWrites hpre]
    exact readiness_host hfault hpend rfl
  rw [List.map_append, List.map_cons, runState_levelWrites hpre hready, runState_succ hwrite,
    runState_succ (step_pendingCommit hpending post), hcommit, ← Nat.add_zero post.length,
    runState_levelWrites hpost hready'']
  rfl

/-- Settles O36: the write of `IT` stands somewhere among the two level writes, each of which its level names. -/
theorem setAppliesInEveryOrder : Obligations.SetAppliesInEveryOrder := by
  intro s r order hperm hit hfault hpend hstale hin
  obtain ⟨pre, post, rfl⟩ := List.append_of_mem (hperm.mem_iff.mpr (List.mem_cons_self (a := Instr.wrIt r.it)))
  have hlevels : (pre ++ post).Perm [.wrHlevel r.hl, .wrVlevel r.vl] :=
    (List.perm_middle.symm.trans hperm).cons_inv
  have hall : LevelWrites r.hl r.vl (pre ++ post) := fun i hi => by simpa using hlevels.mem_iff.mp hi
  have hpre : LevelWrites r.hl r.vl pre := fun i hi => hall i (List.mem_append_left post hi)
  have hpost : LevelWrites r.hl r.vl post := fun i hi => hall i (List.mem_append_right pre hi)
  have hlength : pre.length + (post.length + 2) = 4 := by
    have := hlevels.length_eq
    simp at this
    omega
  have hrun := runState_set hpre hpost hit hfault hpend hstale
  have hself : s.setInputs ((pre ++ Instr.wrIt r.it :: post).map hostTurn) = s := congrArg s.setInputs hin.symm
  rw [hlength, hself] at hrun
  have hhl : .wrHlevel r.hl ∈ pre ∨ .wrHlevel r.hl ∈ post := List.mem_append.mp (hlevels.mem_iff.mpr (by simp))
  have hvl : .wrVlevel r.vl ∈ pre ∨ .wrVlevel r.vl ∈ post := List.mem_append.mp (hlevels.mem_iff.mpr (by simp))
  rw [applyAll_levelWrites hpost, applyAll_levelWrites hpre] at hrun
  refine ⟨_, hrun, rfl, ?_, ?_, rfl, rfl, hfault, rfl, rfl, rfl, rfl, rfl, rfl⟩
  · simp [committed]
    tauto
  · simp [committed]
    tauto

end Sys2Proof.Machine
end

section
/-! PROOFS. The host's reads of an encode with nothing between them (45_host_boundary.md R169 to R171). -/

namespace Sys2Proof.Machine

/-! ### How the cells of a still buffer are read -/

theorem readCells_cons_ok {m : Memory} {i : Nat} {is : List Nat} {vs : List Data16}
    (h : readCells m (i :: is) = .ok vs) : ∃ v us, m.read i = some v ∧ readCells m is = .ok us ∧ vs = v :: us := by
  unfold readCells at h
  split at h
  · cases h
  · next v hv =>
    split at h
    · next us hus =>
      cases h
      exact ⟨v, us, hv, hus, rfl⟩
    · cases h

theorem readCells_cons_error {m : Memory} {i : Nat} {is : List Nat} {f : FaultRecord}
    (h : readCells m (i :: is) = .error f) :
    (m.read i = none ∧ f = ⟨.unwrittenRead, BitVec.ofNat 16 i⟩) ∨
    ∃ v, m.read i = some v ∧ readCells m is = .error f := by
  unfold readCells at h
  split at h
  · next hnone =>
    cases h
    exact .inl ⟨hnone, rfl⟩
  · next v hv =>
    split at h
    · cases h
    · next f' hf =>
      cases h
      exact .inr ⟨v, hv, hf⟩

theorem readCells_ok_length {m : Memory} {is : List Nat} {vs : List Data16} (h : readCells m is = .ok vs) :
    vs.length = is.length := by
  induction is generalizing vs with
  | nil =>
    cases h
    rfl
  | cons i is ih =>
    obtain ⟨v, us, -, hus, rfl⟩ := readCells_cons_ok h
    rw [List.length_cons, List.length_cons, ih hus]

/-- An encode at defined levels ends as the reading of its cells does. -/
theorem encodeFrame_of_defined {cap : Nat} {m : Memory} {hl vl : Byte} (h : levelsUndefined hl vl = false) :
    (∀ bytes, encodeFrame cap m hl vl = .frame bytes ↔
      ∃ vs, readCells m (consumedIndices cap hl.toNat) = .ok vs ∧ bytes = packSamples vl vs) ∧
    (∀ f, encodeFrame cap m hl vl = .faulted f ↔ readCells m (consumedIndices cap hl.toNat) = .error f) := by
  unfold encodeFrame
  rw [if_neg (by simp [h])]
  cases readCells m (consumedIndices cap hl.toNat) <;> simp [eq_comm]

/-- At undefined levels an encode is refused. -/
theorem encodeFrame_of_undefined {cap : Nat} {m : Memory} {hl vl : Byte} (h : levelsUndefined hl vl = true) :
    encodeFrame cap m hl vl = .refused .levelUndefined :=
  encodeFrame_eq_refused_iff.mpr ⟨levelsUndefined_iff.mp h, rfl⟩

/-- The consumed indices are indices of the buffer. -/
theorem lt_of_mem_consumedIndices {cap hl j : Nat} (h : j ∈ consumedIndices cap hl) : j < cap := by
  obtain ⟨i, hi, rfl⟩ := List.mem_map.mp h
  exact shiftLeft_lt_of_lt_frameSamples (List.mem_range.mp hi)

/-- An index of the buffer fits the operand of `RD_SAMPLE`, since `CAP <= 65535`. -/
theorem index_toNat {c : Config} {j : Nat} (h : j < c.cap) : (BitVec.ofNat 16 j).toNat = j := by
  have := c.capLe
  rw [BitVec.toNat_ofNat, Nat.mod_eq_of_lt (by omega)]

/-! ### Reads in a row -/

/-- The sample reads of some indices, in their order. -/
def sampleReads (is : List Nat) : List Instr := is.map fun i => .rdSample (BitVec.ofNat 16 i)

/-- The block `s` after it has delivered values. -/
def delivered (vs : List Data16) (s : State) : State := { s with trace := s.trace ++ vs.map .readData }

theorem delivered_cons (v : Data16) (vs : List Data16) (s : State) :
    delivered vs (s.emit (.readData v)) = delivered (v :: vs) s := by
  simp [delivered, State.emit]

theorem runOps_cons {i : Instr} {s t : State} (h : exec i s = .next t) (is : List Instr) :
    runOps (i :: is) s = runOps is t := by
  simp only [runOps, h]

/-- In a faulted block the sample reads do nothing. -/
theorem runOps_sampleReads_of_fault {s : State} (h : s.fault ≠ none) (is : List Nat) :
    runOps (sampleReads is) s = .next s := by
  induction is with
  | nil => rfl
  | cons i is ih => exact (runOps_cons (exec_of_fault (i := .rdSample _) h nofun) _).trans ih

/-- Register reads of a host that has a step deliver the registers. -/
theorem runOps_readInstrs {s : State} (hready : readiness .host s = .ready) (rs : List Reg) :
    runOps (rs.map Reg.readInstr) s = .next (delivered (rs.map (·.value s)) s) := by
  induction rs generalizing s with
  | nil => simp [runOps, delivered]
  | cons r rs ih =>
    have hnext := ih (s := s.emit (.readData (r.value s))) hready
    simp only [Reg.value_emit, delivered_cons] at hnext
    exact (runOps_cons (exec_readInstr hready r) _).trans hnext

/-- Sample reads of written cells deliver them. -/
theorem runOps_sampleReads_ok {s : State} (hready : readiness .host s = .ready) {is : List Nat}
    (his : ∀ i ∈ is, i < s.cfg.cap) {vs : List Data16} (h : readCells s.buf is = .ok vs) :
    runOps (sampleReads is) s = .next (delivered vs s) := by
  induction is generalizing s vs with
  | nil =>
    cases h
    simp [sampleReads, runOps, delivered]
  | cons i is ih =>
    obtain ⟨hi, his'⟩ := List.forall_mem_cons.mp his
    obtain ⟨v, us, hv, hus, rfl⟩ := readCells_cons_ok h
    have hindex := index_toNat hi
    have hread := readSample_of_written (i := BitVec.ofNat 16 i) (hindex.trans_lt hi) (hindex.symm ▸ hv)
    have hexec := exec_rdSample hready (BitVec.ofNat 16 i)
    rw [hread] at hexec
    rw [← delivered_cons]
    exact (runOps_cons hexec _).trans (ih (s := s.emit (.readData v)) hready his' hus)

/-- Sample reads that meet an unwritten cell end in its fault. -/
theorem runOps_sampleReads_error {s : State} (hready : readiness .host s = .ready) {is : List Nat}
    (his : ∀ i ∈ is, i < s.cfg.cap) {f : FaultRecord} (h : readCells s.buf is = .error f) :
    ∃ t, runOps (sampleReads is) s = .next t ∧ t.fault = some f := by
  induction is generalizing s with
  | nil => cases h
  | cons i is ih =>
    obtain ⟨hi, his'⟩ := List.forall_mem_cons.mp his
    have hindex := index_toNat hi
    have hexec := exec_rdSample hready (BitVec.ofNat 16 i)
    obtain ⟨hnone, rfl⟩ | ⟨v, hv, hrest⟩ := readCells_cons_error h
    · rw [readSample_of_unwritten (hindex.trans_lt hi) (hindex.symm ▸ hnone)] at hexec
      exact ⟨_, (runOps_cons hexec _).trans (runOps_sampleReads_of_fault (by simp) is), rfl⟩
    · rw [readSample_of_written (hindex.trans_lt hi) (hindex.symm ▸ hv)] at hexec
      obtain ⟨t, hrun, hfault⟩ := ih (s := s.emit (.readData v)) hready his' hrest
      exact ⟨t, (runOps_cons hexec _).trans hrun, hfault⟩

/-! ### The encode -/

/-- The two levels in the order in which they are read. -/
def levelRegs (vlFirst : Bool) : List Reg := if vlFirst then [.vl, .hl] else [.hl, .vl]

theorem levelOps_eq (vlFirst : Bool) : levelOps vlFirst = (levelRegs vlFirst).map Reg.readInstr := by
  cases vlFirst <;> rfl

theorem levelRegs_value (vlFirst : Bool) (s : State) : (levelRegs vlFirst).map (·.value s) =
    if vlFirst then [0x00#8 ++ s.vl, 0x00#8 ++ s.hl] else [0x00#8 ++ s.hl, 0x00#8 ++ s.vl] := by
  cases vlFirst <;> simp [levelRegs, Reg.value, zext16_eq_append]

/-- The operations of an encode: the level reads, then at defined levels the sample reads. -/
theorem runOps_encodeOps {s : State} (hready : readiness .host s = .ready) (vlFirst : Bool) :
    runOps (encodeOps vlFirst s.cfg.cap s.hl s.vl) s =
      runOps (if levelsUndefined s.hl s.vl then [] else sampleReads (consumedIndices s.cfg.cap s.hl.toNat))
        (delivered ((levelRegs vlFirst).map (·.value s)) s) := by
  rw [encodeOps, levelOps_eq]
  exact runOps_append (runOps_readInstrs hready (levelRegs vlFirst)) _

/-- Settles O48: after the level reads the block stands as before but for its trace, and the sample reads end as the reading of
the cells does. -/
theorem encodeByReads : Obligations.EncodeByReads := by
  intro s vlFirst hfault hpend hstale
  have hready := readiness_host hfault hpend hstale
  rw [runOps_encodeOps hready, ← levelRegs_value]
  generalize (levelRegs vlFirst).map (·.value s) = levels
  have hready' : readiness .host (delivered levels s) = .ready := hready
  have his : ∀ i ∈ consumedIndices s.cfg.cap s.hl.toNat, i < s.cfg.cap := fun _ => lt_of_mem_consumedIndices
  cases hlevels : levelsUndefined s.hl s.vl with
  | true =>
    rw [encodeFrame_of_undefined hlevels]
    exact ⟨nofun, nofun, fun _ => rfl⟩
  | false =>
    obtain ⟨hframe, hfaulted⟩ := encodeFrame_of_defined (cap := s.cfg.cap) (m := s.buf) hlevels
    refine ⟨fun bytes hbytes => ?_, fun f hf => ?_, fun ⟨r, hr⟩ => ?_⟩
    · obtain ⟨vs, hvs, rfl⟩ := (hframe bytes).mp hbytes
      refine ⟨vs, (runOps_sampleReads_ok hready' his hvs).trans ?_, ?_, rfl⟩
      · simp [delivered]
      · rw [readCells_ok_length hvs]
        simp [consumedIndices, frameSamples]
    · exact runOps_sampleReads_error hready' his ((hfaulted f).mp hf)
    · obtain ⟨hundefined, -⟩ := encodeFrame_eq_refused_iff.mp hr
      cases hlevels.symm.trans (levelsUndefined_iff.mpr hundefined)

end Sys2Proof.Machine
end

section
/-! PROOFS. Reads of the live buffer (45_host_boundary.md R170): what one read of the host comes to, whatever micro-steps it
waits for, and the encode with ticks between its reads. -/

namespace Sys2Proof.Machine

/-! ### What a read answers -/

/-- What the block `t`, left by a read that was due in `u`, says that the read delivered. -/
def readAnswer (u t : State) : Except EncodeResult Data16 :=
  match t.fault, (t.trace.drop u.trace.length).getLast? with
  | some f, _ => .error (.faulted f)
  | none, some (.readData v) => .ok v
  | none, _ => .error .halted

theorem readNow_of_fault {u : State} (h : u.fault ≠ none) (i : Instr) : readNow i u = (u, .error .halted) := by
  rw [readNow, if_pos (Option.isSome_iff_ne_none.mpr h)]

theorem readNow_of_noFault {u : State} (h : u.fault = none) (i : Instr) :
    readNow i u = (takeTurns [hostTurn i] u, readAnswer u (takeTurns [hostTurn i] u)) := by
  rw [readNow, if_neg (by simp [h])]
  unfold readAnswer
  simp only [hostTurn]
  split <;> simp_all

theorem readAnswer_of_fault {u t : State} {f : FaultRecord} (h : t.fault = some f) :
    readAnswer u t = .error (.faulted f) := by
  simp only [readAnswer, h]

theorem readAnswer_of_delivered {u t : State} {outs : List Output} {v : Data16} (hfault : t.fault = none)
    (h : t.trace = u.trace ++ outs ++ [.readData v]) : readAnswer u t = .ok v := by
  simp [readAnswer, hfault, h]

/-- The cell `i` as the answer of a sample read. -/
def cellAnswer (m : Memory) (i : Data16) : Except EncodeResult Data16 :=
  match m.read i.toNat with
  | some v => .ok v
  | none => .error (.faulted ⟨.unwrittenRead, i⟩)

theorem readAnswer_readSample {u t : State} {outs : List Output} {i : Data16} (hi : i.toNat < t.cfg.cap)
    (hfault : t.fault = none) (h : t.trace = u.trace ++ outs) : readAnswer u (readSample i t) = cellAnswer t.buf i := by
  unfold cellAnswer
  cases hcell : t.buf.read i.toNat with
  | none =>
    rw [readSample_of_unwritten hi hcell]
    exact readAnswer_of_fault rfl
  | some v =>
    rw [readSample_of_written hi hcell]
    exact readAnswer_of_delivered hfault (congrArg (· ++ [Output.readData v]) h)

/-! ### A sample read and the micro-steps that it waits for -/

section PendingRead

variable {t : State} {i : Data16} (hin : t.inputs = [hostTurn (.rdSample i)])

include hin in
theorem inputs_ne_nil : t.inputs ≠ [] := by simp [hin]

include hin in
/-- The turn of a host that has a step is the read. -/
theorem drain_read_ready (hi : i.toNat < t.cfg.cap) (hready : readiness .host t = .ready) (n : Nat) :
    drain (n + 1) t = readSample i (t.setInputs []) := by
  have hstep : step t = .next (readSample i (t.setInputs [])) := by
    rw [step_of_decodeFrom hin hready (decodeFrom_rdSampleWord hi)]
    exact exec_rdSample (s := t.setInputs []) hready i
  rw [drain_succ (inputs_ne_nil hin) hstep, drain_of_empty (readSample_inputs (t.setInputs []) i)]

include hin in
theorem drain_read_awaitsCommit (hready : readiness .host t = .awaitsCommit) (n : Nat) :
    drain (n + 1) t = drain n (cpCommit t) := by
  obtain ⟨-, -, -, -, hcommit⟩ := step_issue hin
  exact drain_succ (inputs_ne_nil hin) (hcommit hready) n

include hin in
theorem drain_read_awaitsAdvance (hready : readiness .host t = .awaitsAdvance) (n : Nat) :
    drain (n + 1) t = drain n (convAdvance t) := by
  obtain ⟨-, -, -, hadvance, -⟩ := step_issue hin
  exact drain_succ (inputs_ne_nil hin) (hadvance hready) n

include hin in
/-- In a faulted block the turn passes. -/
theorem drain_read_halted (hfault : t.fault ≠ none) (n : Nat) : drain (n + 1) t = t.setInputs [] := by
  obtain ⟨-, -, hhalt, -⟩ := step_issue hin
  have hstep := hhalt (readiness_halted hfault (by decide))
  rw [drain_succ (inputs_ne_nil hin) hstep, drain_of_empty rfl]

/-- What a sample read that is due in `t` answers, once the micro-steps before it are taken. -/
def dueAnswer (t : State) (i : Data16) : Except EncodeResult Data16 :=
  if t.stale = true ∧ t.it = 0 then .error (.faulted ⟨.divZero, 0⟩) else cellAnswer t.buf i

variable {u : State} {outs : List Output}

include hin in
/-- With no conversion in flight the read waits for the commit at most. -/
theorem readAnswer_drain_of_noPend (hi : i.toNat < t.cfg.cap) (hfault : t.fault = none) (hpend : t.convPend = none)
    (htrace : t.trace = u.trace ++ outs) (n : Nat) : readAnswer u (drain (n + 2) t) = dueAnswer t i := by
  unfold dueAnswer
  cases hstale : t.stale with
  | false =>
    rw [drain_read_ready hin hi (readiness_host hfault hpend hstale), if_neg (by simp)]
    exact readAnswer_readSample (t := t.setInputs []) hi hfault htrace
  | true =>
    rw [drain_read_awaitsCommit hin (readiness_host_awaitsCommit hfault hpend hstale)]
    obtain ⟨hit, hcommit⟩ | ⟨hit, hcommit⟩ := cpCommit_cases t
    · have hfault' : (cpCommit t).fault = some ⟨.divZero, 0⟩ := by rw [hcommit, State.raise_fault]
      rw [drain_read_halted ((cpCommit_inputs t).trans hin) (by simp [hfault']), if_pos ⟨rfl, hit⟩]
      exact readAnswer_of_fault hfault'
    · have hready : readiness .host (cpCommit t) = .ready := by
        rw [hcommit]
        exact readiness_host hfault hpend rfl
      rw [drain_read_ready ((cpCommit_inputs t).trans hin) (by rwa [cpCommit_cfg]) hready, if_neg fun h => hit h.right,
        readAnswer_readSample (outs := outs ++ [.afeSet t.vl]), State.setInputs_buf, cpCommit_buf]
      · rwa [State.setInputs_cfg, cpCommit_cfg]
      · rw [hcommit]
        exact hfault
      · rw [hcommit, State.setInputs_trace, htrace, List.append_assoc]

include hin in
/-- A conversion in flight is completed first; it leaves what the read goes by. -/
theorem readAnswer_drain (hi : i.toNat < t.cfg.cap) (hfault : t.fault = none) (htrace : t.trace = u.trace ++ outs) :
    readAnswer u (drain 3 t) = dueAnswer t i := by
  cases hpend : t.convPend with
  | none => exact readAnswer_drain_of_noPend hin hi hfault hpend htrace 1
  | some c =>
    obtain ⟨cur, hadvance, -⟩ := convAdvance_of_some hpend
    have hdone : (convAdvance t).convPend = none := by rw [hadvance]
    rw [drain_read_awaitsAdvance hin (readiness_awaitsAdvance hfault (by simp [hpend]) (.inl rfl)),
      readAnswer_drain_of_noPend ((convAdvance_inputs t).trans hin) (by rwa [convAdvance_cfg])
        ((convAdvance_fault t).trans hfault) hdone ((convAdvance_trace t).trans htrace)]
    simp only [dueAnswer, convAdvance_stale, convAdvance_it, convAdvance_buf]

end PendingRead

/-- Settles O51: in a block without a fault the read waits for `CONV_ADVANCE` and `CP_COMMIT` at most. -/
theorem liveReadDeliversCellAtItsTime : Obligations.LiveReadDeliversCellAtItsTime := by
  intro s others i u hi
  change (readNow (.rdSample i) u).2 = _
  split
  · next hfault => rw [readNow_of_fault hfault]
  · next hfault =>
    have hnone : u.fault = none := not_not.mp hfault
    have hdrain := readAnswer_drain (t := u.setInputs [hostTurn (.rdSample i)]) (u := u) (outs := []) rfl hi hnone
      (List.append_nil _).symm
    rw [readNow_of_noFault hnone]
    exact hdrain

/-! ### Ticks between the reads -/

/-- The turns are ticks of the tick source. -/
def Ticks (ts : List Turn) : Prop := ∀ t ∈ ts, t = .issue .tickSource 0x00000000

/-- The block `t` is as good as `s` for an encode: it does not hold the host, and has its parameters, levels, buffer and
marks. -/
structure EncodesAs (s t : State) : Prop where
  cfg : t.cfg = s.cfg
  hl : t.hl = s.hl
  vl : t.vl = s.vl
  buf : t.buf = s.buf
  refusals : t.refusals = s.refusals
  fault : t.fault = none
  convPend : t.convPend = none
  stale : t.stale = false

section EncodesAs

variable {s t u : State}

theorem EncodesAs.ready (h : EncodesAs s t) : readiness .host t = .ready := readiness_host h.fault h.convPend h.stale

theorem EncodesAs.setInputs (h : EncodesAs s t) (ts : List Turn) : EncodesAs s (t.setInputs ts) := { h with }

theorem EncodesAs.emit (h : EncodesAs s t) (o : Output) : EncodesAs s (t.emit o) := { h with }

theorem EncodesAs.tick (h : EncodesAs s t) : EncodesAs s (tick t) := by
  rw [tick_frame]
  exact { h with }

/-- Scheduled ticks leave the block as good as it was. -/
theorem EncodesAs.drain (h : EncodesAs s t) (hticks : Ticks t.inputs) (n : Nat) : EncodesAs s (drain n t) := by
  induction n generalizing t with
  | zero => exact h
  | succ n ih =>
    cases hin : t.inputs with
    | nil => rwa [drain_of_empty hin]
    | cons turn rest =>
      rw [hin] at hticks
      obtain ⟨rfl, hrest⟩ := List.forall_mem_cons.mp hticks
      rw [drain_succ (by simp [hin]) (step_tick hin h.fault)]
      exact ih (h.setInputs rest).tick (by rwa [tick_inputs])

/-- Ticks before a read leave the block as good as it was. -/
theorem EncodesAs.takeTurns (h : EncodesAs s t) {ts : List Turn} (hticks : Ticks ts) :
    EncodesAs s (takeTurns (othersTurns ts) t) :=
  ((h.setInputs _).drain (fun turn hturn => hticks turn (mem_othersTurns.mp hturn).left) _).setInputs _

/-! ### Single reads with ticks before them -/

/-- A read of a host that has a step is its operation's effect. -/
theorem hostRead_of_encodesAs (h : EncodesAs s t) {ts : List Turn} (hticks : Ticks ts) {i : Instr}
    (hi : i.issuer = .host) (hwf : i.wellFormed s.cfg.cap = true) :
    ∃ u, EncodesAs s u ∧ hostRead ts i t = (effect i u, readAnswer u (effect i u)) := by
  have hu := h.takeTurns hticks
  have hdec := decodeFrom_encode (hu.cfg.symm ▸ hwf)
  rw [hi] at hdec
  refine ⟨_, hu, ?_⟩
  rw [hostRead, readNow_of_noFault hu.fault, hostTurn, takeTurns_ready hu.ready hdec]

/-- A level read delivers the level that stands. -/
theorem hostRead_register (h : EncodesAs s t) {ts : List Turn} (hticks : Ticks ts) {r : Reg}
    (hvalue : ∀ u, EncodesAs s u → r.value u = r.value s) :
    ∃ u, hostRead ts r.readInstr t = (u, .ok (r.value s)) ∧ EncodesAs s u := by
  have hwf : r.readInstr.wellFormed s.cfg.cap = true := by cases r <;> rfl
  obtain ⟨u, hu, hread⟩ := hostRead_of_encodesAs h hticks (issuer_readInstr r) hwf
  rw [effect_readInstr] at hread
  have hanswer : readAnswer u (readRegister r u) = .ok (r.value s) :=
    readAnswer_of_delivered (outs := []) hu.fault (by rw [readRegister, hvalue u hu, List.append_nil]; rfl)
  exact ⟨readRegister r u, by rw [hread, hanswer], hu.emit _⟩

/-- A sample read delivers the cell that stands, or ends in its fault. -/
theorem hostRead_sample (h : EncodesAs s t) {ts : List Turn} (hticks : Ticks ts) {i : Data16}
    (hi : i.toNat < s.cfg.cap) :
    (∀ v, s.buf.read i.toNat = some v → ∃ u, hostRead ts (.rdSample i) t = (u, .ok v) ∧ EncodesAs s u) ∧
    (s.buf.read i.toNat = none → ∃ u, EncodesAs s u ∧
      hostRead ts (.rdSample i) t = (u.raise .unwrittenRead i, .error (.faulted ⟨.unwrittenRead, i⟩))) := by
  obtain ⟨u, hu, hread⟩ := hostRead_of_encodesAs h hticks (i := .rdSample i) rfl (decide_eq_true hi)
  rw [← hu.cfg] at hi
  have hanswer : readAnswer u (readSample i u) = _ :=
    readAnswer_readSample (outs := []) hi hu.fault (List.append_nil _).symm
  simp only [effect, hanswer] at hread
  rw [← hu.buf]
  refine ⟨fun v hv => ⟨u.emit (.readData v), ?_, hu.emit _⟩, fun hnone => ⟨u, hu, ?_⟩⟩
  · rw [hread, readSample_of_written hi hv, cellAnswer, hv]
  · rw [hread, readSample_of_unwritten hi hnone, cellAnswer, hnone]

/-! ### Sample reads with ticks before each of them -/

/-- The turns before each read are ticks. -/
def TicksBetween (between : List (List Turn)) : Prop := ∀ ts ∈ between, Ticks ts

theorem TicksBetween.headD {between : List (List Turn)} (h : TicksBetween between) : Ticks (between.headD []) := by
  cases between with
  | nil => exact nofun
  | cons ts _ => exact h ts List.mem_cons_self

theorem TicksBetween.tail {between : List (List Turn)} (h : TicksBetween between) : TicksBetween between.tail :=
  fun ts hts => h ts (List.mem_of_mem_tail hts)

theorem liveReads_cons_ok {between : List (List Turn)} {i : Instr} {v : Data16}
    (h : hostRead (between.headD []) i t = (u, .ok v)) (is : List Instr) :
    liveReads (i :: is) between t =
      ((liveReads is between.tail u).1, (liveReads is between.tail u).2.map (v :: ·)) := by
  simp only [liveReads, h]
  split
  · next heq => simp [heq, Except.map]
  · next heq => simp [heq, Except.map]

theorem liveReads_cons_error {between : List (List Turn)} {i : Instr} {e : EncodeResult}
    (h : hostRead (between.headD []) i t = (u, .error e)) (is : List Instr) :
    liveReads (i :: is) between t = (u, .error e) := by
  simp only [liveReads, h]

/-- Live sample reads of cells that are written deliver what the still buffer holds. -/
theorem liveReads_ok {is : List Nat} (his : ∀ i ∈ is, i < s.cfg.cap) {vs : List Data16}
    (hread : readCells s.buf is = .ok vs) {between : List (List Turn)} (hbetween : TicksBetween between)
    (h : EncodesAs s t) : ∃ u, liveReads (sampleReads is) between t = (u, .ok vs) ∧ EncodesAs s u := by
  induction is generalizing vs between t with
  | nil =>
    cases hread
    exact ⟨t, rfl, h⟩
  | cons i is ih =>
    obtain ⟨hi, his'⟩ := List.forall_mem_cons.mp his
    obtain ⟨v, vs, hv, hrest, rfl⟩ := readCells_cons_ok hread
    have hindex := index_toNat hi
    obtain ⟨hwritten, -⟩ := hostRead_sample h hbetween.headD (hindex.trans_lt hi)
    obtain ⟨u, hfirst, hu⟩ := hwritten v (hindex.symm ▸ hv)
    obtain ⟨u', hlater, hu'⟩ := ih his' hrest hbetween.tail hu
    exact ⟨u', by rw [sampleReads, List.map_cons, liveReads_cons_ok hfirst, ← sampleReads, hlater]; rfl, hu'⟩

/-- Live sample reads that meet an unwritten cell end in its fault. -/
theorem liveReads_error {is : List Nat} (his : ∀ i ∈ is, i < s.cfg.cap) {f : FaultRecord}
    (hread : readCells s.buf is = .error f) {between : List (List Turn)} (hbetween : TicksBetween between)
    (h : EncodesAs s t) : ∃ u, EncodesAs s u ∧
      liveReads (sampleReads is) between t = (u.raise f.code f.info, .error (.faulted f)) := by
  induction is generalizing between t with
  | nil => cases hread
  | cons i is ih =>
    obtain ⟨hi, his'⟩ := List.forall_mem_cons.mp his
    have hindex := index_toNat hi
    obtain ⟨hwritten, hunwritten⟩ := hostRead_sample h hbetween.headD (hindex.trans_lt hi)
    obtain ⟨hnone, rfl⟩ | ⟨v, hv, hrest⟩ := readCells_cons_error hread
    · obtain ⟨u, hu, hfirst⟩ := hunwritten (hindex.symm ▸ hnone)
      exact ⟨u, hu, liveReads_cons_error hfirst _⟩
    · obtain ⟨u, hfirst, hu⟩ := hwritten v (hindex.symm ▸ hv)
      obtain ⟨u', hu', hlater⟩ := ih his' hrest hbetween.tail hu
      exact ⟨u', hu', by rw [sampleReads, List.map_cons, liveReads_cons_ok hfirst, ← sampleReads, hlater]; rfl⟩

/-! ### The encode -/

/-- A live encode of the block `s` ends as the encode of its still buffer at its levels. -/
def EndsAsStill (s : State) (live : State × EncodeResult) : Prop :=
  live.2 = encodeFrame s.cfg.cap s.buf s.hl s.vl ∧ live.1.hl = s.hl ∧ live.1.vl = s.vl ∧ live.1.buf = s.buf ∧
    (∀ f, live.2 = .faulted f → live.1.fault = some f) ∧
    (∀ bytes, live.2 = .frame bytes → live.1.fault = none ∧ live.1.refusals = s.refusals) ∧
    ∀ r, live.2 = .refused r → live.1.refusals = s.refusals ++ [r]

/-- After the level reads a live encode ends as the still one, in each of its three ends. -/
theorem liveSamples_endsAsStill (h : EncodesAs s t) {between : List (List Turn)} (hbetween : TicksBetween between) :
    EndsAsStill s (liveSamples s.hl s.vl between t) := by
  unfold liveSamples
  cases hlevels : levelsUndefined s.hl s.vl with
  | true =>
    refine ⟨(encodeFrame_of_undefined hlevels).symm, h.hl, h.vl, h.buf, nofun, nofun, fun r hr => ?_⟩
    cases hr
    exact congrArg (· ++ [RefuseReason.levelUndefined]) h.refusals
  | false =>
    obtain ⟨hframe, hfaulted⟩ := encodeFrame_of_defined (cap := s.cfg.cap) (m := s.buf) hlevels
    have his : ∀ i ∈ consumedIndices s.cfg.cap s.hl.toNat, i < s.cfg.cap := fun _ => lt_of_mem_consumedIndices
    have hops : sampleOps t.cfg.cap s.hl = sampleReads (consumedIndices s.cfg.cap s.hl.toNat) := by
      rw [h.cfg]
      rfl
    rw [if_neg (by simp), hops]
    cases hread : readCells s.buf (consumedIndices s.cfg.cap s.hl.toNat) with
    | ok vs =>
      obtain ⟨u, hlive, hu⟩ := liveReads_ok his hread hbetween h
      rw [hlive]
      exact ⟨((hframe _).mpr ⟨vs, hread, rfl⟩).symm, hu.hl, hu.vl, hu.buf, nofun, fun _ _ => ⟨hu.fault, hu.refusals⟩,
        nofun⟩
    | error f =>
      obtain ⟨u, hu, hlive⟩ := liveReads_error his hread hbetween h
      rw [hlive]
      refine ⟨((hfaulted f).mpr hread).symm, hu.hl, hu.vl, hu.buf, fun f' hf => ?_, nofun, nofun⟩
      cases hf
      rfl

/-- A level that was read in 16 bits is the level. -/
theorem setWidth_zext16 (v : Byte) : (zext16 v).setWidth 8 = v :=
  BitVec.setWidth_setWidth_of_le v (by decide)

end EncodesAs

/-- Settles O52: the level reads deliver the levels in either order, and leave the sample reads to end as the still encode. -/
theorem liveEncodeUnderTicks : Obligations.LiveEncodeUnderTicks := by
  intro s vlFirst between hfault hpend hstale hticks
  have hbetween : TicksBetween between := hticks
  have hs : EncodesAs s s := ⟨rfl, rfl, rfl, rfl, rfl, hfault, hpend, hstale⟩
  have hhl : ∀ u, EncodesAs s u → Reg.value .hl u = Reg.value .hl s := fun u hu => congrArg zext16 hu.hl
  have hvl : ∀ u, EncodesAs s u → Reg.value .vl u = Reg.value .vl s := fun u hu => congrArg zext16 hu.vl
  suffices hsuff : ∃ u, EncodesAs s u ∧ liveEncode vlFirst between s = liveSamples s.hl s.vl (between.drop 2) u by
    obtain ⟨u, hu, hlive⟩ := hsuff
    have hdrop : TicksBetween (between.drop 2) := fun ts hts => hbetween ts (List.mem_of_mem_drop hts)
    exact hlive ▸ liveSamples_endsAsStill hu hdrop
  unfold liveEncode
  cases vlFirst with
  | true =>
    obtain ⟨t, hfirst, ht⟩ := hostRead_register hs hbetween.headD hvl
    obtain ⟨u, hsecond, hu⟩ := hostRead_register ht hbetween.tail.headD hhl
    refine ⟨u, hu, ?_⟩
    simp only [Reg.readInstr] at hfirst hsecond
    simp only [if_true, hfirst, hsecond, Reg.value, setWidth_zext16]
  | false =>
    obtain ⟨t, hfirst, ht⟩ := hostRead_register hs hbetween.headD hhl
    obtain ⟨u, hsecond, hu⟩ := hostRead_register ht hbetween.tail.headD hvl
    refine ⟨u, hu, ?_⟩
    simp only [Reg.readInstr] at hfirst hsecond
    simp only [Bool.false_eq_true, if_false, hfirst, hsecond, Reg.value, setWidth_zext16]

end Sys2Proof.Machine
end
